-- ==== Sys2Proof/Word.lean ====
section
/-! DEFINITION. The words of the CORE: the widths the spec fixes (00_scope.md R5, R7). -/

namespace Sys2Proof

/-- One bit: the carry flag and the fault flag (R7, R17). -/
abbrev Bit := BitVec 1

/-- Four bits: an opcode, an immediate, an accumulator, a port latch, a fault code (R7, R17). -/
abbrev Nibble := BitVec 4

/-- Eight bits: an instruction, a ROM cell (R7). -/
abbrev Byte := BitVec 8

/-- A ROM index, as wide as the program counter: `PC_WIDTH` = 8 bits (R5, R13, decision D1). -/
abbrev Index := BitVec 8

end Sys2Proof
end

