-- ==== Sys2Proof/Syntax.lean ====
section
/-! DEFINITION. The instructions of the CORE: the closed set of twelve (30_encoding.md R53, R8). -/

namespace Sys2Proof

/-- The twelve instructions of R53, in the order of its table. Every one has the one format OI (R50), so every one
carries its low nibble `im`. `movAB`, `movBA`, `inA`, `inB` and `outB` ignore it (R55): it is kept so that decode
returns "`immediate == b & 0x0F`" for every byte (R58), and no handler reads it. -/
inductive Instr where
  | addA  (im : Nibble)
  | addB  (im : Nibble)
  | movA  (im : Nibble)
  | movB  (im : Nibble)
  | movAB (im : Nibble)
  | movBA (im : Nibble)
  | jmp   (im : Nibble)
  | jnc   (im : Nibble)
  | inA   (im : Nibble)
  | inB   (im : Nibble)
  | out   (im : Nibble)
  | outB  (im : Nibble)
  deriving DecidableEq, Repr

/-- The immediate field of an instruction (R50, R52). -/
def Instr.im : Instr → Nibble
  | .addA im | .addB im | .movA im | .movB im | .movAB im | .movBA im => im
  | .jmp im | .jnc im | .inA im | .inB im | .out im | .outB im => im

/-- The arithmetic instructions: `AddA` and `AddB`. Every other instruction is "non-arithmetic" and clears the carry
(00_scope.md, glossary; R14). -/
def Instr.isAdd : Instr → Bool
  | .addA _ | .addB _ => true
  | .movA _ | .movB _ | .movAB _ | .movBA _ | .jmp _ | .jnc _ | .inA _ | .inB _ | .out _ | .outB _ => false

/-- The instructions that read the input port (R16, R22). -/
def Instr.readsPort : Instr → Bool
  | .inA _ | .inB _ => true
  | .addA _ | .addB _ | .movA _ | .movB _ | .movAB _ | .movBA _ | .jmp _ | .jnc _ | .out _ | .outB _ => false

/-- The instructions that write accumulator A (R11, R22). -/
def Instr.writesA : Instr → Bool
  | .addA _ | .movA _ | .movAB _ | .inA _ => true
  | .addB _ | .movB _ | .movBA _ | .jmp _ | .jnc _ | .inB _ | .out _ | .outB _ => false

/-- The instructions that write accumulator B (R12, R22). -/
def Instr.writesB : Instr → Bool
  | .addB _ | .movB _ | .movBA _ | .inB _ => true
  | .addA _ | .movA _ | .movAB _ | .jmp _ | .jnc _ | .inA _ | .out _ | .outB _ => false

/-- The instructions that write the output latch (R15, R22). -/
def Instr.writesOut : Instr → Bool
  | .out _ | .outB _ => true
  | .addA _ | .addB _ | .movA _ | .movB _ | .movAB _ | .movBA _ | .jmp _ | .jnc _ | .inA _ | .inB _ => false

end Sys2Proof
end

