-- ==== Sys2Proof/WellFormed.lean ====
section
/-! DEFINITION. Well-formedness. An `Instr` is well formed by its type (a 4-bit operand, every value legal: R52, R55);
what can be ill formed is a line of the spec's assembler syntax (30_encoding.md R59, decision D12), which names an
instruction and may give it an operand. -/

namespace Sys2Proof

/-- The mnemonics of R59, spelled in Lean's case. -/
inductive Mnemonic where
  | addA | addB | movA | movB | movAB | movBA | jmp | jnc | inA | inB | out | outB
  deriving DecidableEq, Repr

/-- Whether the instruction uses `im`, so that its operand is required (R22, column "`im` used"; R59). -/
def Mnemonic.usesIm : Mnemonic → Bool
  | .addA | .addB | .movA | .movB | .jmp | .jnc | .out => true
  | .movAB | .movBA | .inA | .inB | .outB => false

/-- One line of R59 without index and comment: a mnemonic with an optional operand, or a raw byte (`.byte`). -/
inductive Line where
  | insn (m : Mnemonic) (operand : Option Nat)
  | byte (value : Nat)
  deriving DecidableEq, Repr

/-- R59's checks: the operand is a number 0..15; it is required where `im` is used and optional elsewhere; a raw byte
is 0..255. -/
def Line.wf : Line → Bool
  | .insn _ (some n) => decide (n ≤ 15)
  | .insn m none => !m.usesIm
  | .byte v => decide (v ≤ 255)

/-- The mnemonic of an instruction. -/
def Instr.mnemonic : Instr → Mnemonic
  | .addA _ => .addA
  | .addB _ => .addB
  | .movA _ => .movA
  | .movB _ => .movB
  | .movAB _ => .movAB
  | .movBA _ => .movBA
  | .jmp _ => .jmp
  | .jnc _ => .jnc
  | .inA _ => .inA
  | .inB _ => .inB
  | .out _ => .out
  | .outB _ => .outB

/-- The instruction a mnemonic and an immediate make (R50). -/
def Mnemonic.instr : Mnemonic → Nibble → Instr
  | .addA, im => .addA im
  | .addB, im => .addB im
  | .movA, im => .movA im
  | .movB, im => .movB im
  | .movAB, im => .movAB im
  | .movBA, im => .movBA im
  | .jmp, im => .jmp im
  | .jnc, im => .jnc im
  | .inA, im => .inA im
  | .inB, im => .inB im
  | .out, im => .out im
  | .outB, im => .outB im

/-- The line that writes an instruction, its low nibble given in full (R59: "written with an operand (`MovAB 15`) they
assemble with that low nibble"). -/
def Instr.line (i : Instr) : Line := .insn i.mnemonic (some i.im.toNat)

/-- An instruction is well formed when the line that writes it is. -/
def Instr.wf (i : Instr) : Bool := i.line.wf

end Sys2Proof
end

