-- ==== Sys2Proof/Decode.lean ====
section
/-! DEFINITION. Decoding and encoding (30_encoding.md R50-R58, R59; 40_cycle.md R73). -/

namespace Sys2Proof

/-- Why decode refuses a byte: the one condition, with the offending 4-bit value (R73, R130). -/
inductive DecodeError where
  | unsupportedOpcode (bits : Nibble)
  deriving DecidableEq, Repr

/-- `opcode = byte[7:4] = byte >> 4` (R51). -/
def opcodeField (byte : Byte) : Nibble := byte.extractLsb' 4 4

/-- `im = byte[3:0] = byte & 0x0F` (R51, R52). -/
def imField (byte : Byte) : Nibble := byte.extractLsb' 0 4

/-- R53's map sorted by opcode value, R54's four illegal opcodes, R73's result: total on bytes. The low nibble never
takes part in selecting the instruction. -/
def decode (byte : Byte) : Except DecodeError Instr :=
  match (opcodeField byte).toNat with
  | 0 => .ok (.addA (imField byte))
  | 1 => .ok (.movAB (imField byte))
  | 2 => .ok (.inA (imField byte))
  | 3 => .ok (.movA (imField byte))
  | 4 => .ok (.movBA (imField byte))
  | 5 => .ok (.addB (imField byte))
  | 6 => .ok (.inB (imField byte))
  | 7 => .ok (.movB (imField byte))
  | 9 => .ok (.outB (imField byte))
  | 11 => .ok (.out (imField byte))
  | 14 => .ok (.jnc (imField byte))
  | 15 => .ok (.jmp (imField byte))
  | _ => .error (.unsupportedOpcode (opcodeField byte))

/-- The unique 4-bit code of an instruction (R53). -/
def Instr.opcode : Instr → Nibble
  | .addA _ => 0b0000#4
  | .addB _ => 0b0101#4
  | .movA _ => 0b0011#4
  | .movB _ => 0b0111#4
  | .movAB _ => 0b0001#4
  | .movBA _ => 0b0100#4
  | .jmp _ => 0b1111#4
  | .jnc _ => 0b1110#4
  | .inA _ => 0b0010#4
  | .inB _ => 0b0110#4
  | .out _ => 0b1011#4
  | .outB _ => 0b1001#4

/-- `byte = {opcode, im}` (R50). -/
def encode (i : Instr) : Byte := i.opcode ++ i.im

/-- One row of R53's table: the instruction, and `match` and `mask` over the whole byte. -/
structure MapRow where
  mnemonic : Mnemonic
  matchBits : Byte
  mask : Byte
  deriving DecidableEq, Repr

/-- R53's table as the spec prints it. The decoder above is the switch; the two agree (`Obligations.DecodeFollowsOpcodeMap`). -/
def opcodeMap : List MapRow :=
  [ ⟨.addA, 0x00, 0xF0⟩, ⟨.addB, 0x50, 0xF0⟩, ⟨.movA, 0x30, 0xF0⟩, ⟨.movB, 0x70, 0xF0⟩,
    ⟨.movAB, 0x10, 0xF0⟩, ⟨.movBA, 0x40, 0xF0⟩, ⟨.jmp, 0xF0, 0xF0⟩, ⟨.jnc, 0xE0, 0xF0⟩,
    ⟨.inA, 0x20, 0xF0⟩, ⟨.inB, 0x60, 0xF0⟩, ⟨.out, 0xB0, 0xF0⟩, ⟨.outB, 0x90, 0xF0⟩ ]

/-- One line assembles to one byte (R59): the operand becomes `im`, which is 0 where none is given; a raw byte stands
as it is; an ill-formed line assembles to nothing. -/
def assemble (l : Line) : Option Byte :=
  if l.wf then
    match l with
    | .insn m operand => some (encode (m.instr (BitVec.ofNat 4 (operand.getD 0))))
    | .byte v => some (BitVec.ofNat 8 v)
  else none

/-- The instruction the decoder reads from an instruction of `nbits` bits `w`, bit 0 the least significant of the
first byte. An instruction is its first byte (R50, R57). -/
def decodeTableWord (nbits w : Nat) : Option Instr :=
  (decode (BitVec.ofNat 8 (w % 2 ^ nbits))).toOption

end Sys2Proof
end

