-- ==== Sys2Proof/Config.lean ====
section
/-! DEFINITION. What a build or a launch of the CORE fixes, and the free values the spec leaves to the host
(00_scope.md R6, R9; 10_state.md R16; 92_eei_decisions.md, open parameters). -/

namespace Sys2Proof

/-- The largest `ROM_LEN`: `2 ^ PC_WIDTH` (R6, decision D2). -/
abbrev Config.maxRomLen : Nat := 256

/-- The nominal `ROM_LEN`, which `State.reset` holds (R6: "The nominal value is **16**"). DESIGN CHOICE, log entry 3. -/
abbrev Config.nominalRomLen : Nat := 16

/-- The value on `in_port` at the n-th clock edge, where the host's list does not say: a free value under no law
(R16, decision D6, U7 "`any value`"). Log entry 1. -/
opaque Config.freeInput : Nat → Nibble

end Sys2Proof
end

