-- ==== Sys2Proof/Machine/State.lean ====
section
/-! DEFINITION. The state of the CORE and the reasons a step can stop (10_state.md R10-R26, 60_exceptions.md). -/

namespace Sys2Proof.Machine

/-- The ROM's contents as (index, byte) pairs in one canonical form (`Memory.wf`): indices strictly rising, no byte
0x00, which is what an unlisted index reads as (R31, R32; log entry 4). -/
abbrev Memory := List Host.Cell

/-- What the host drives on the core's input pins at one clock edge: `rst` and `in_port` (R21, R16). -/
structure EdgeInput where
  rst : Bool
  inPort : Nibble
  deriving DecidableEq, Repr

/-- The state. `pc` to `fltCode` are the seven architectural fields of R10. `romLen` and `rom` are the launch's
configuration (R6, R25), which no step changes. `host` is what the host drives at the coming edges, this edge's first
(R16, R21, R168); `edges` counts the edges that have passed and indexes `Config.freeInput` (log entry 1). -/
structure State where
  pc : Index
  a : Nibble
  b : Nibble
  c : Bit
  out : Nibble
  flt : Bit
  fltCode : Nibble
  romLen : Fin 257
  rom : Memory
  host : List EdgeInput
  edges : Nat
  deriving DecidableEq, Repr

/-- Right after reset: the seven fields as R23 states them, the entry point at index 0 (R161). `ROM_LEN` is the
nominal 16 (log entry 3), no ROM byte is listed (log entry 4) and the host's list is empty (log entry 1). -/
def State.reset : State where
  pc := 0
  a := 0
  b := 0
  c := 0
  out := 0
  flt := 0
  fltCode := 0
  romLen := 16
  rom := []
  host := []
  edges := 0

/-- Why the machine stops. Each carries the state the core holds afterwards, so that a host can look at it and reset
it (R21, R139). -/
inductive Fault where
  /-- Raised by the clock edge whose cycle decodes an illegal opcode (R130, R137: "the single outcome *fault*
  `UnsupportedOpcode(bits)`"). `latched` is the state of R131: pc advanced, `flt` and `fltCode` set, the rest kept.
  Safe: the spec's own outcome. -/
  | unsupportedOpcode (bits : Nibble) (latched : State)
  /-- Raised by a clock edge with `rst` low on a core whose `flt` is 1: no cycle is performed and every field holds
  (R137: "a faulted state has no further step"). `held` is that state after the edge. Safe: the spec's own outcome. -/
  | stopped (code : Nibble) (held : State)
  deriving DecidableEq, Repr

/-- The state a stopped core holds. -/
def Fault.state : Fault → State
  | .unsupportedOpcode _ latched => latched
  | .stopped _ held => held

/-- Why an instruction has no meaning in this model. No arm of `exec` refuses. -/
inductive Refusal where
  /-- Raised by an arm of `exec` whose instruction has no meaning yet; none is left. Safe: nothing is claimed of it. -/
  | notModelled (mnemonic : String)
  deriving DecidableEq, Repr

end Sys2Proof.Machine
end

