-- ==== Sys2Proof/Machine/Operands.lean ====
section
/-! DEFINITION. The operand forms: the immediate, a register, the input port (30_encoding.md R52, 44_io.md). The
immediate is written to a 4-bit destination as it stands, so only its two other uses need a function. -/

namespace Sys2Proof.Machine

/-- A jump target: the immediate zero-extended to `PC_WIDTH` bits (R52, R110, R112). -/
def jumpTarget (im : Nibble) : Index := im.setWidth 8

/-- The exact sum of a register and an immediate, 0..30 (R90, R91). -/
def exactSum (reg im : Nibble) : Nat := reg.toNat + im.toNat

/-- `sum mod 16` (R90, R91). -/
def sumResult (sum : Nat) : Nibble := BitVec.ofNat 4 sum

/-- The host's levels at this clock edge: the head of its list; past the list's end `rst` is low and `in_port` is a
free value (R16, R21, U7; log entries 1 and 2). -/
def State.edgeInput (s : State) : EdgeInput :=
  match s.host with
  | e :: _ => e
  | [] => { rst := false, inPort := Config.freeInput s.edges }

/-- `in`: the value on the input port in this cycle (R16). -/
def State.inNow (s : State) : Nibble := s.edgeInput.inPort

/-- `rst` at this clock edge (R21). -/
def State.rstNow (s : State) : Bool := s.edgeInput.rst

end Sys2Proof.Machine
end

