-- ==== Sys2Proof/Machine/Flags.lean ====
section
/-! DEFINITION. The carry flag, the only flag (10_state.md R14). -/

namespace Sys2Proof.Machine

/-- The carry after an Add: set when the exact sum exceeds 15, otherwise left as it was; an Add never clears it
(R14, R90, R91; conflict C4). -/
def carryAfterAdd (c : Bit) (sum : Nat) : Bit := if 15 < sum then 1 else c

/-- The carry after every instruction other than an Add (R14). -/
def carryCleared : Bit := 0

end Sys2Proof.Machine
end

