-- ==== Sys2Proof/Machine/Memory.lean ====
section
/-! DEFINITION. The ROM's contents and the ROM reader (20_memory.md R30-R37). No instruction writes memory (R30:
"`MemWrite` does not exist"): the writes below are the host's, before a run (70_reset_and_hazards.md R168). -/

namespace Sys2Proof.Machine

/-- The byte at an index; an unlisted index holds 0x00. -/
def Memory.read : Memory → Nat → Byte
  | [], _ => 0x00
  | (a, v) :: m, x => if x = a then v else Memory.read m x

/-- The host puts one byte at an index, keeping the canonical form. -/
def Memory.write : Memory → Nat → Byte → Memory
  | [], x, v => if v = 0x00 then [] else [(x, v)]
  | (a, w) :: m, x, v =>
    if x < a then (if v = 0x00 then (a, w) :: m else (x, v) :: (a, w) :: m)
    else if x = a then (if v = 0x00 then m else (x, v) :: m)
    else (a, w) :: Memory.write m x v

/-- The host lays out bytes from an index on (R31: indices start at 0). -/
def Memory.ofBytes : Nat → List Byte → Memory
  | _, [] => []
  | k, v :: vs => if v = 0x00 then Memory.ofBytes (k + 1) vs else (k, v) :: Memory.ofBytes (k + 1) vs

/-- The canonical form from an index on: indices strictly rising from `lo`, no byte 0x00. -/
def Memory.wfFrom : Nat → Memory → Bool
  | _, [] => true
  | lo, (a, v) :: m => decide (lo ≤ a) && decide (v ≠ 0x00) && Memory.wfFrom (a + 1) m

/-- The canonical form. -/
def Memory.wf (m : Memory) : Bool := Memory.wfFrom 0 m

/-- Every listed index is below `n`. -/
def Memory.below (n : Nat) (m : Memory) : Bool := m.all fun cell => decide (cell.1 < n)

/-- `RomRead(addr)` (R32): `rom[addr]` below `ROM_LEN`, 0x00 at and beyond it; it never faults. -/
def State.romRead (s : State) (addr : Index) : Byte :=
  if addr.toNat < s.romLen.val then Memory.read s.rom addr.toNat else 0x00

end Sys2Proof.Machine
end

