-- ==== Sys2Proof/Machine/Ops.lean ====
section
/-! DEFINITION. The named operations on the state: register writes, fetch, the fault latch, reset, the passing of a
clock edge, and the host's moves before a run. -/

namespace Sys2Proof.Machine

/-- `a <- v` (R11). -/
def State.setA (s : State) (v : Nibble) : State := { s with a := v }

/-- `b <- v` (R12). -/
def State.setB (s : State) (v : Nibble) : State := { s with b := v }

/-- `c <- v` (R14). -/
def State.setC (s : State) (v : Bit) : State := { s with c := v }

/-- `out <- v` (R15). -/
def State.setOut (s : State) (v : Nibble) : State := { s with out := v }

/-- `pc <- target` (R13). -/
def State.setPc (s : State) (target : Index) : State := { s with pc := target }

/-- `Fetch()` (R71): beyond the end (`ROM_LEN < pc`) the sentinel 0x00 and `pc` kept; otherwise `RomRead(pc)` and `pc`
advanced, wrapping at `2 ^ PC_WIDTH`. -/
def State.fetch (s : State) : Byte × State :=
  if s.romLen.val < s.pc.toNat then (0x00, s) else (s.romRead s.pc, s.setPc (s.pc + 1))

/-- TAKING THE ONE EXCEPTION (R131, R137): the latch is set and nothing else is written; `pc` stays as fetch left it.
There is no vector, no saved register and no mode (R134, R141). -/
def State.latchFault (s : State) (bits : Nibble) : State := { s with flt := 1, fltCode := bits }

/-- The return from it: there is none but reset (R139). A clock edge with `rst` high gives the seven fields their reset
values, the latch among them, and leaves the ROM as it is (R160, R23). -/
def State.resetCore (s : State) : State :=
  { s with pc := 0, a := 0, b := 0, c := 0, out := 0, flt := 0, fltCode := 0 }

/-- A clock edge has passed: the host's next levels come up. It touches nothing the core holds. -/
def State.passEdge (s : State) : State := { s with host := s.host.tail, edges := s.edges + 1 }

/-- The end of a cycle: what the handler left takes effect at the edge (R76). -/
def endCycle : Host.Outcome State Fault Refusal → Host.Outcome State Fault Refusal
  | .next t => .next t.passEdge
  | .fault r => .fault r
  | .refused r => .refused r

/-- The host supplies the ROM before a run (R168); more than `2 ^ PC_WIDTH` bytes are refused (U14, decision D2). -/
def State.loadRom (s : State) (bytes : List Byte) : Option State :=
  if h : bytes.length < 257 then some { s with romLen := ⟨bytes.length, h⟩, rom := Memory.ofBytes 0 bytes } else none

/-- The host establishes a launch state: any values within the widths, the latch clear (R162, decision D9). -/
def State.launch (s : State) (pc : Index) (a b : Nibble) (c : Bit) (out : Nibble) : State :=
  { s with pc := pc, a := a, b := b, c := c, out := out, flt := 0, fltCode := 0 }

/-- The host drives these levels at the coming edges (R168). -/
def State.drive (s : State) (levels : List EdgeInput) : State := { s with host := levels }

/-- The host drives these values on `in_port` at the coming edges, with `rst` low (R168). -/
def State.driveIn (s : State) (values : List Nibble) : State := s.drive (values.map (EdgeInput.mk false))

/-- The signal `rom_addr` (R21): `pc` before fetch. -/
def State.romAddr (s : State) : Index := s.pc

/-- The signal `out_port` (R21). -/
def State.outPort (s : State) : Nibble := s.out

/-- The signal `fault` (R21). -/
def State.fault (s : State) : Bit := s.flt

/-- The signal `fault_code` (R21). -/
def State.faultCode (s : State) : Nibble := s.fltCode

end Sys2Proof.Machine
end

