-- ==== Sys2Proof/Machine/Arithmetic.lean ====
section
/-! DEFINITION. AddA, AddB (41_arithmetic.md). `pc` already holds what fetch left. -/

namespace Sys2Proof.Machine

/-- R90: `a <- (a + im) mod 16`; the carry is set when the sum exceeds 15, else unchanged. -/
def execAddA (im : Nibble) (s : State) : Host.Outcome State Fault Refusal :=
  .next ((s.setA (sumResult (exactSum s.a im))).setC (carryAfterAdd s.c (exactSum s.a im)))

/-- R91: `b <- (b + im) mod 16`; the carry is set when the sum exceeds 15, else unchanged. -/
def execAddB (im : Nibble) (s : State) : Host.Outcome State Fault Refusal :=
  .next ((s.setB (sumResult (exactSum s.b im))).setC (carryAfterAdd s.c (exactSum s.b im)))

end Sys2Proof.Machine
end

