-- ==== Sys2Proof/Machine/Jump.lean ====
section
/-! DEFINITION. Jmp, Jnc (43_jump.md). Both clear the carry. -/

namespace Sys2Proof.Machine

/-- R110: `pc <- im`, which overrides fetch's advance. -/
def execJmp (im : Nibble) (s : State) : Host.Outcome State Fault Refusal :=
  .next ((s.setPc (jumpTarget im)).setC carryCleared)

/-- R111: the carry is tested before it is cleared; not taken, `pc` stays as fetch left it. -/
def execJnc (im : Nibble) (s : State) : Host.Outcome State Fault Refusal :=
  .next ((if s.c = 0 then s.setPc (jumpTarget im) else s).setC carryCleared)

end Sys2Proof.Machine
end

