-- ==== Sys2Proof/Machine/Move.lean ====
section
/-! DEFINITION. MovA, MovB, MovAB, MovBA (42_move.md). All clear the carry. -/

namespace Sys2Proof.Machine

/-- R100: `a <- im`. -/
def execMovA (im : Nibble) (s : State) : Host.Outcome State Fault Refusal :=
  .next ((s.setA im).setC carryCleared)

/-- R101: `b <- im`. -/
def execMovB (im : Nibble) (s : State) : Host.Outcome State Fault Refusal :=
  .next ((s.setB im).setC carryCleared)

/-- R102: `a <- b`; the immediate is ignored (R55). -/
def execMovAB (s : State) : Host.Outcome State Fault Refusal :=
  .next ((s.setA s.b).setC carryCleared)

/-- R103: `b <- a`; the immediate is ignored (R55). -/
def execMovBA (s : State) : Host.Outcome State Fault Refusal :=
  .next ((s.setB s.a).setC carryCleared)

end Sys2Proof.Machine
end

