-- ==== Sys2Proof/Machine/Port.lean ====
section
/-! DEFINITION. InA, InB, Out, OutB (44_io.md). All clear the carry. -/

namespace Sys2Proof.Machine

/-- R120: `a <- in`; the immediate is ignored (R55). -/
def execInA (s : State) : Host.Outcome State Fault Refusal :=
  .next ((s.setA s.inNow).setC carryCleared)

/-- R121: `b <- in`; the immediate is ignored (R55). -/
def execInB (s : State) : Host.Outcome State Fault Refusal :=
  .next ((s.setB s.inNow).setC carryCleared)

/-- R122: `out <- im`. -/
def execOut (im : Nibble) (s : State) : Host.Outcome State Fault Refusal :=
  .next ((s.setOut im).setC carryCleared)

/-- R123: `out <- b`; the immediate is ignored (R55). -/
def execOutB (s : State) : Host.Outcome State Fault Refusal :=
  .next ((s.setOut s.b).setC carryCleared)

end Sys2Proof.Machine
end

