-- ==== Sys2Proof/Machine/Dispatch.lean ====
section
/-! DEFINITION. Dispatch to exactly one handler (40_cycle.md R74). -/

namespace Sys2Proof.Machine

def exec (i : Instr) (s : State) : Host.Outcome State Fault Refusal :=
  match i with
  | .addA im => Sys2Proof.Machine.execAddA im s
  | .addB im => Sys2Proof.Machine.execAddB im s
  | .movA im => Sys2Proof.Machine.execMovA im s
  | .movB im => Sys2Proof.Machine.execMovB im s
  | .movAB _ => Sys2Proof.Machine.execMovAB s
  | .movBA _ => Sys2Proof.Machine.execMovBA s
  | .jmp im => Sys2Proof.Machine.execJmp im s
  | .jnc im => Sys2Proof.Machine.execJnc im s
  | .inA _ => Sys2Proof.Machine.execInA s
  | .inB _ => Sys2Proof.Machine.execInB s
  | .out im => Sys2Proof.Machine.execOut im s
  | .outB _ => Sys2Proof.Machine.execOutB s

end Sys2Proof.Machine
end

