-- ==== Sys2Proof/Machine/Cycle.lean ====
section
/-! DEFINITION. One clock edge of the core and one instruction cycle (10_state.md R21, 40_cycle.md R70). -/

namespace Sys2Proof.Machine

/-- `Cycle(S, in)` (R70): one fetch, one decode of the fetched byte, one handler. Where decode raises, `pc` has been
advanced, no handler runs, and the latch is set (R131). -/
def cycle (s : State) : Host.Outcome State Fault Refusal :=
  match decode s.fetch.1 with
  | .ok i => endCycle (exec i s.fetch.2)
  | .error (.unsupportedOpcode bits) => .fault (.unsupportedOpcode bits (s.fetch.2.latchFault bits).passEdge)

/-- One rising edge of `clk` (R21): with `rst` high the reset of R160, which has priority over everything (R136); else
a latched core performs no cycle (R137); else one cycle. -/
def clockEdge (s : State) : Host.Outcome State Fault Refusal :=
  if s.rstNow then .next s.resetCore.passEdge
  else if s.flt = 1 then .fault (.stopped s.fltCode s.passEdge)
  else cycle s

/-- `s` with `rst` low at this edge, whatever the host's list says. -/
def State.releaseReset (s : State) : State :=
  match s.host with
  | e :: es => { s with host := { e with rst := false } :: es }
  | [] => s

/-- `s` with a byte where the next fetch reads: at index `pc`, with `ROM_LEN` raised to take the index in where it
does not, the latch clear and `rst` low (log entry 5). -/
def State.placeByte (s : State) (byte : Byte) : State :=
  { s.releaseReset with
    flt := 0
    fltCode := 0
    romLen := Fin.ofNat 257 (max s.romLen.val (s.pc.toNat + 1))
    rom := Memory.write s.rom s.pc.toNat byte }

end Sys2Proof.Machine
end

