-- ==== Sys2Proof/Machine/Step.lean ====
section
/-! DEFINITION. The step of the machine: one clock edge (00_scope.md R2, 10_state.md R21). -/

namespace Sys2Proof.Machine

/-- One step is one clock edge. -/
def step (s : State) : Host.Outcome State Fault Refusal := clockEdge s

/-- `s` with the instruction whose bits are `w` where `step` fetches next. An instruction is one byte (R50, R57). -/
def State.withFetchWord (s : State) (nbits w : Nat) : State := s.placeByte (BitVec.ofNat 8 (w % 2 ^ nbits))

end Sys2Proof.Machine
end

