-- ==== Sys2Proof/Safety.lean ====
section
/-! DEFINITION. The terms claims are stated in: the invariant of the core, what two states share, a ROM that cannot
fault, a fixed point, the end of a run. -/

namespace Sys2Proof.Machine

/-- The two states agree on the seven architectural fields (R10). -/
def State.sameCore (s t : State) : Prop :=
  t.pc = s.pc ∧ t.a = s.a ∧ t.b = s.b ∧ t.c = s.c ∧ t.out = s.out ∧ t.flt = s.flt ∧ t.fltCode = s.fltCode

/-- The two states hold the same ROM: the same length, and every index reads alike (R31, R41). -/
def State.sameRom (s t : State) : Prop := t.romLen = s.romLen ∧ ∀ x : Index, t.romRead x = s.romRead x

/-- The two states agree on all that no instruction writes: the fault latch (R22), the ROM (R30), and the host's
coming levels (R36). -/
def State.sameOutside (s t : State) : Prop :=
  t.flt = s.flt ∧ t.fltCode = s.fltCode ∧ s.sameRom t ∧ t.host = s.host ∧ t.edges = s.edges

/-- The core performs a cycle at this edge: `rst` is low and the latch is clear (R21). -/
def State.running (s : State) : Prop := s.rstNow = false ∧ s.flt = 0

/-- The four illegal opcodes (R54). -/
def illegalOpcodes : List Nibble := [8, 10, 12, 13]

/-- The fault latch says nothing while `flt` is 0 and holds an illegal opcode while it is 1 (R17, R18, R19). -/
def State.latchInv (s : State) : Prop := (s.flt = 0 ∧ s.fltCode = 0) ∨ (s.flt = 1 ∧ s.fltCode ∈ illegalOpcodes)

/-- The ROM is in canonical form and lists no index at or beyond `ROM_LEN` (R31). -/
def State.romInv (s : State) : Prop := Memory.wf s.rom = true ∧ Memory.below s.romLen.val s.rom = true

/-- `pc` is within reach: at most one past the one-past-the-end index, or a jump target (R37, R72, R110). -/
def State.pcInReach (s : State) : Prop := s.pc.toNat ≤ max (s.romLen.val + 1) 15

/-- The invariant every step keeps. -/
def State.Inv (s : State) : Prop := s.latchInv ∧ s.romInv

/-- No byte of the ROM has an illegal high nibble (R163). -/
def State.romLegal (s : State) : Prop := ∀ x : Index, x.toNat < s.romLen.val → opcodeField (s.romRead x) ∉ illegalOpcodes

/-- The host holds `rst` low at every coming edge. -/
def State.noReset (s : State) : Prop := ∀ e ∈ s.host, e.rst = false

/-- `s` with these levels at this edge, before the host's others. -/
def State.drivenNow (s : State) (e : EdgeInput) : State := { s with host := e :: s.host }

/-- `s` with another ROM of the same length. -/
def State.withRom (s : State) (rom : Memory) : State := { s with rom := rom }

/-- Whether an Add overflows at a state: its exact sum exceeds 15. -/
def addOverflows (i : Instr) (s : State) : Prop :=
  (∃ im, i = .addA im ∧ 15 < s.a.toNat + im.toNat) ∨ (∃ im, i = .addB im ∧ 15 < s.b.toNat + im.toNat)

/-- The handlers of a list of instructions, one after another. -/
def execAll : List Instr → State → Host.Outcome State Fault Refusal
  | [], s => .next s
  | i :: is, s =>
    match exec i s with
    | .next t => execAll is t
    | .fault r => .fault r
    | .refused r => .refused r

/-- What a list of Adds adds to `a`. -/
def addedToA : List Instr → Nat
  | [] => 0
  | .addA im :: is => im.toNat + addedToA is
  | _ :: is => addedToA is

/-- A fixed point (R170 (b)): the latch is clear and a cycle changes no architectural field, whatever `in` is. -/
def State.fixedPoint (s : State) : Prop :=
  s.flt = 0 ∧ ∀ v : Nibble, ∃ t, step (s.drivenNow ⟨false, v⟩) = .next t ∧ s.sameCore t

/-- R170's three candidates for the end of a run (`END_OF_RUN`, decision D13). -/
inductive EndOfRun where
  | afterCycles (n : Nat)
  | atFixedPoint
  | outReaches (v : Nibble)
  deriving DecidableEq, Repr

/-- Whether a run that stands at `s` after `k` clock edges without a fault has ended. A claim chooses which candidate.
Whichever it is, a faulted state is never an end: "A run that faults has not ended" (R170), and a faulted state "is
never a final (successfully ended) state" (R137). DESIGN CHOICE, log entry 15: `k` counts every clock edge, an edge
with `rst` high among them, although no cycle is performed there (R21, R160); the spec does not say whether such an
edge counts among the n cycles of candidate (a). -/
def EndOfRun.ended (e : EndOfRun) (k : Nat) (s : State) : Prop :=
  s.flt = 0 ∧
    match e with
    | .afterCycles n => k = n
    | .atFixedPoint => s.fixedPoint
    | .outReaches v => s.out = v

end Sys2Proof.Machine
end

