-- ==== Sys2Proof/Certificates/Slice0/Obligations.lean ====
section
/-! DEFINITION. The statements for the provers, each from the rules of spec/ its docstring names. -/

open Sys2Proof Sys2Proof.Machine

/-! ### Reset -/

/-- Decision D8 (10_state.md section 11): after reset the seven architectural fields are 0, so that execution starts at
ROM index 0. The reset values are the spec's own decision. -/
def Obligations.ResetStateValues : Prop :=
  State.reset.pc = 0 ∧ State.reset.a = 0 ∧ State.reset.b = 0 ∧ State.reset.c = 0 ∧ State.reset.out = 0 ∧
  State.reset.flt = 0 ∧ State.reset.fltCode = 0

/-- Decisions D8 and D10 (70_reset_and_hazards.md section 1): on an edge with `rst` high every field takes its reset
value, from any state, a latched one too; no cycle is performed, and the ROM stays. -/
def Obligations.ResetEdgeClearsCore : Prop :=
  ∀ s : State, s.rstNow = true → ∃ t, step s = .next t ∧
    t.pc = 0 ∧ t.a = 0 ∧ t.b = 0 ∧ t.c = 0 ∧ t.out = 0 ∧ t.flt = 0 ∧ t.fltCode = 0 ∧ s.sameRom t

/-! ### The twelve instructions: encoding, result, and frame. `s` is the state as fetch left it. -/

/-- R90. -/
def Obligations.AddAResult : Prop :=
  ∀ (im : Nibble) (s : State), (encode (.addA im)).toNat = 0x00 + im.toNat ∧ ∃ t, exec (.addA im) s = .next t ∧
    t.a.toNat = (s.a.toNat + im.toNat) % 16 ∧ t.c = (if 15 < s.a.toNat + im.toNat then 1 else s.c) ∧
    t.b = s.b ∧ t.out = s.out ∧ t.pc = s.pc ∧ s.sameOutside t

/-- R91. -/
def Obligations.AddBResult : Prop :=
  ∀ (im : Nibble) (s : State), (encode (.addB im)).toNat = 0x50 + im.toNat ∧ ∃ t, exec (.addB im) s = .next t ∧
    t.b.toNat = (s.b.toNat + im.toNat) % 16 ∧ t.c = (if 15 < s.b.toNat + im.toNat then 1 else s.c) ∧
    t.a = s.a ∧ t.out = s.out ∧ t.pc = s.pc ∧ s.sameOutside t

/-- R100. -/
def Obligations.MovAResult : Prop :=
  ∀ (im : Nibble) (s : State), (encode (.movA im)).toNat = 0x30 + im.toNat ∧ ∃ t, exec (.movA im) s = .next t ∧
    t.a = im ∧ t.c = 0 ∧ t.b = s.b ∧ t.out = s.out ∧ t.pc = s.pc ∧ s.sameOutside t

/-- R101. -/
def Obligations.MovBResult : Prop :=
  ∀ (im : Nibble) (s : State), (encode (.movB im)).toNat = 0x70 + im.toNat ∧ ∃ t, exec (.movB im) s = .next t ∧
    t.b = im ∧ t.c = 0 ∧ t.a = s.a ∧ t.out = s.out ∧ t.pc = s.pc ∧ s.sameOutside t

/-- R102. -/
def Obligations.MovABResult : Prop :=
  ∀ (im : Nibble) (s : State), (encode (.movAB im)).toNat = 0x10 + im.toNat ∧ ∃ t, exec (.movAB im) s = .next t ∧
    t.a = s.b ∧ t.c = 0 ∧ t.b = s.b ∧ t.out = s.out ∧ t.pc = s.pc ∧ s.sameOutside t

/-- R103. -/
def Obligations.MovBAResult : Prop :=
  ∀ (im : Nibble) (s : State), (encode (.movBA im)).toNat = 0x40 + im.toNat ∧ ∃ t, exec (.movBA im) s = .next t ∧
    t.b = s.a ∧ t.c = 0 ∧ t.a = s.a ∧ t.out = s.out ∧ t.pc = s.pc ∧ s.sameOutside t

/-- R110. -/
def Obligations.JmpResult : Prop :=
  ∀ (im : Nibble) (s : State), (encode (.jmp im)).toNat = 0xF0 + im.toNat ∧ ∃ t, exec (.jmp im) s = .next t ∧
    t.pc.toNat = im.toNat ∧ t.c = 0 ∧ t.a = s.a ∧ t.b = s.b ∧ t.out = s.out ∧ s.sameOutside t

/-- R111. -/
def Obligations.JncResult : Prop :=
  ∀ (im : Nibble) (s : State), (encode (.jnc im)).toNat = 0xE0 + im.toNat ∧ ∃ t, exec (.jnc im) s = .next t ∧
    t.pc.toNat = (if s.c = 0 then im.toNat else s.pc.toNat) ∧ t.c = 0 ∧
    t.a = s.a ∧ t.b = s.b ∧ t.out = s.out ∧ s.sameOutside t

/-- R120. `s.inNow` is the value on the input port in this cycle. -/
def Obligations.InAResult : Prop :=
  ∀ (im : Nibble) (s : State), (encode (.inA im)).toNat = 0x20 + im.toNat ∧ ∃ t, exec (.inA im) s = .next t ∧
    t.a = s.inNow ∧ t.c = 0 ∧ t.b = s.b ∧ t.out = s.out ∧ t.pc = s.pc ∧ s.sameOutside t

/-- R121. `s.inNow` is the value on the input port in this cycle. -/
def Obligations.InBResult : Prop :=
  ∀ (im : Nibble) (s : State), (encode (.inB im)).toNat = 0x60 + im.toNat ∧ ∃ t, exec (.inB im) s = .next t ∧
    t.b = s.inNow ∧ t.c = 0 ∧ t.a = s.a ∧ t.out = s.out ∧ t.pc = s.pc ∧ s.sameOutside t

/-- R122. -/
def Obligations.OutResult : Prop :=
  ∀ (im : Nibble) (s : State), (encode (.out im)).toNat = 0xB0 + im.toNat ∧ ∃ t, exec (.out im) s = .next t ∧
    t.out = im ∧ t.c = 0 ∧ t.a = s.a ∧ t.b = s.b ∧ t.pc = s.pc ∧ s.sameOutside t

/-- R123. -/
def Obligations.OutBResult : Prop :=
  ∀ (im : Nibble) (s : State), (encode (.outB im)).toNat = 0x90 + im.toNat ∧ ∃ t, exec (.outB im) s = .next t ∧
    t.out = s.b ∧ t.c = 0 ∧ t.a = s.a ∧ t.b = s.b ∧ t.pc = s.pc ∧ s.sameOutside t

/-! ### Encoding -/

/-- Bytes of 95_test_vectors.md section 2.1, at least one of each family, decode to what the table there says. -/
def Obligations.SampleBytesDecode : Prop :=
  decode 0b00001111 = .ok (.addA 15) ∧ decode 0b01010101 = .ok (.addB 5) ∧ decode 0b00111101 = .ok (.movA 13) ∧
  decode 0b00011111 = .ok (.movAB 15) ∧ decode 0b11110100 = .ok (.jmp 4) ∧ decode 0b11100001 = .ok (.jnc 1) ∧
  decode 0b01101010 = .ok (.inB 10) ∧ decode 0b10110101 = .ok (.out 5) ∧
  decode 0b10100111 = .error (.unsupportedOpcode 10)

/-- R58: decode is total on bytes; it answers a pair whose opcode is the high nibble and
whose immediate is the low nibble, or refuses exactly when the
high nibble is 8, 10, 12 or 13; 192 bytes are instructions and 64 fault. -/
def Obligations.DecodeTotalOnBytes : Prop :=
  (∀ byte : Byte,
    (byte.toNat >>> 4 ∉ [8, 10, 12, 13] ∧ ∃ i, decode byte = .ok i ∧
      i.opcode.toNat = byte.toNat >>> 4 ∧ i.im.toNat = byte.toNat &&& 0x0F) ∨
    (byte.toNat >>> 4 ∈ [8, 10, 12, 13] ∧
      decode byte = .error (.unsupportedOpcode (BitVec.ofNat 4 (byte.toNat >>> 4))))) ∧
  ((List.range 256).filter fun n => (decode (BitVec.ofNat 8 n)).toOption.isSome).length = 192 ∧
  ((List.range 256).filter fun n => (decode (BitVec.ofNat 8 n)).toOption.isNone).length = 64

/-- 30_encoding.md section 2, the opcode map: a byte is the instruction of a row exactly when `byte & mask == match`,
its immediate is the low nibble, and no two rows take the same byte. -/
def Obligations.DecodeFollowsOpcodeMap : Prop :=
  (∀ (byte : Byte) (i : Instr), decode byte = .ok i ↔
    ∃ r ∈ opcodeMap, byte &&& r.mask = r.matchBits ∧ i = r.mnemonic.instr (imField byte)) ∧
  opcodeMap.Pairwise fun r q => ∀ byte : Byte, ¬ (byte &&& r.mask = r.matchBits ∧ byte &&& q.mask = q.matchBits)

/-- 30_encoding.md sections 1 and 2: decode and encode are inverse to one another; no bit of a byte is dropped. -/
def Obligations.DecodeEncodeInverse : Prop :=
  (∀ i : Instr, i.wf = true → decode (encode i) = .ok i) ∧
  (∀ (byte : Byte) (i : Instr), decode byte = .ok i → encode i = byte)

/-- Decision D12 (30_encoding.md section 3): a well-formed line assembles to the byte that decodes to its instruction
with its operand, 0 where none is written; an ill-formed line assembles to nothing. -/
def Obligations.AssembledLineDecodes : Prop :=
  (∀ (m : Mnemonic) (operand : Option Nat), (Line.insn m operand).wf = true →
    ∃ byte im, assemble (.insn m operand) = some byte ∧ decode byte = .ok (m.instr im) ∧
      im.toNat = operand.getD 0 ∧ byte.toNat = (m.instr im).opcode.toNat * 16 + operand.getD 0) ∧
  (∀ (m : Mnemonic) (n : Nat), 15 < n → assemble (.insn m (some n)) = none) ∧
  (∀ m : Mnemonic, m.usesIm = true → assemble (.insn m none) = none)

/-- 30_encoding.md section 2, the ignored immediate: two ROMs whose bytes at `pc` have the same high nibble, that of
`MovAB`, `InA`, `MovBA`, `InB` or `OutB`, give the same architectural state after the step. The spec marks
the rule as its own derivation. -/
def Obligations.IgnoredImmediateAlike : Prop :=
  ∀ (s : State) (rom : Memory), s.running → s.pc.toNat < s.romLen.val →
    opcodeField (s.romRead s.pc) ∈ [1#4, 2#4, 4#4, 6#4, 9#4] →
    opcodeField ((s.withRom rom).romRead s.pc) =
      opcodeField (s.romRead s.pc) →
    ∃ t u, step s = .next t ∧
      step (s.withRom rom) = .next u ∧ t.sameCore u

/-! ### The cycle -/

/-- 40_cycle.md section 2 (decisions D3, D4; conflict C2): the three cases of fetch. The two past-the-end cases
are the spec's own decisions, log entry 7. -/
def Obligations.FetchThreeCases : Prop :=
  ∀ s : State,
    (s.pc.toNat < s.romLen.val → s.fetch.1 = Memory.read s.rom s.pc.toNat ∧
      s.fetch.2.pc.toNat = (s.pc.toNat + 1) % 256) ∧
    (s.pc.toNat = s.romLen.val → s.fetch.1 = 0x00 ∧ s.fetch.2.pc.toNat = (s.pc.toNat + 1) % 256) ∧
    (s.romLen.val < s.pc.toNat → s.fetch.1 = 0x00 ∧ s.fetch.2.pc = s.pc) ∧
    s.fetch.2.a = s.a ∧ s.fetch.2.b = s.b ∧ s.fetch.2.c = s.c ∧ s.fetch.2.out = s.out ∧ s.sameOutside s.fetch.2

/-- 40_cycle.md sections 1 and 4: on a running core, when the byte fetched decodes to `i`, the step is `exec i` on the
state fetch left, after which the clock edge passes: the host's next levels come up and nothing the core holds changes. The
last two clauses, that one entry of the host's list is taken and one edge counted, are the model's own form (log
entries 1 and 11). -/
def Obligations.StepRunsDecodedInstruction : Prop :=
  ∀ (s : State) (i : Instr), s.running → decode s.fetch.1 = .ok i →
    step s = endCycle (exec i s.fetch.2) ∧
    ∃ t, exec i s.fetch.2 = .next t ∧ step s = .next t.passEdge ∧ t.sameCore t.passEdge ∧ t.sameRom t.passEdge ∧
      t.passEdge.host = s.host.tail ∧ t.passEdge.edges = s.edges + 1

/-- R75: every cycle of a core that is not faulted (and not in reset) completes: the next state, or the one fault; it
never holds without stepping and never has no meaning. -/
def Obligations.CycleAlwaysCompletes : Prop :=
  ∀ s : State, s.running →
    (∃ t, step s = .next t ∧ t.flt = 0) ∨ ∃ bits t, step s = .fault (.unsupportedOpcode bits t)

/-- 40_cycle.md section 5 and 43_jump.md (control-transfer laws): `pc` after a cycle is the target for `Jmp` and for
`Jnc` with `c == 0`, and what fetch left for every other instruction and for `Jnc` with `c == 1`. That a
cycle's writes land together is the spec's decision D10, log entry 11. -/
def Obligations.NetEffectOnPc : Prop :=
  ∀ (s : State) (i : Instr), s.running → decode s.fetch.1 = .ok i → ∃ t, step s = .next t ∧
    (∀ im, i = .jmp im → t.pc.toNat = im.toNat) ∧
    (∀ im, i = .jnc im → s.c = 0 → t.pc.toNat = im.toNat) ∧
    (∀ im, i = .jnc im → s.c = 1 → t.pc = s.fetch.2.pc) ∧
    ((∀ im, i ≠ .jmp im ∧ i ≠ .jnc im) → t.pc = s.fetch.2.pc)

/-- 10_state.md section 10, the access matrix, over whole steps: each of `a`, `b`, `out` changes only through the
instructions that write it; the carry is cleared by every non-arithmetic instruction and never cleared by an Add; no
instruction writes the latch. The spec marks the matrix as its own derivation. -/
def Obligations.OnlyWritersChange : Prop :=
  ∀ s t : State, s.rstNow = false → step s = .next t → ∃ i, decode s.fetch.1 = .ok i ∧
    (i.writesA = false → t.a = s.a) ∧ (i.writesB = false → t.b = s.b) ∧ (i.writesOut = false → t.out = s.out) ∧
    (i.isAdd = false → t.c = 0) ∧ (i.isAdd = true → s.c = 1 → t.c = 1) ∧ t.flt = s.flt ∧ t.fltCode = s.fltCode

/-- 20_memory.md section 6 (instruction-fetch coherence): however many steps a run takes, `ROM_LEN` and every byte the
ROM reader returns stay the same. -/
def Obligations.RomImmutableInRun : Prop :=
  ∀ (n : Nat) (s t : State), Sys2Proof.core.run n s = .next t → s.sameRom t

/-! ### Arithmetic -/

/-- 41_arithmetic.md, the arithmetic laws: after a run of consecutive Adds the carry is 1 exactly when it was 1 before
or some Add of the run overflowed (of either register: they share the one flag), and `a` is the sum modulo 16. -/
def Obligations.CarryStickyOverAddRun : Prop :=
  ∀ (l : List Instr) (s : State), (∀ i ∈ l, i.isAdd = true) → ∃ t, execAll l s = .next t ∧
    (t.c = 1 ↔ s.c = 1 ∨ ∃ before i after u, l = before ++ i :: after ∧ execAll before s = .next u ∧ addOverflows i u) ∧
    t.a.toNat = (s.a.toNat + addedToA l) % 16

/-- 41_arithmetic.md (subtraction by addition): from a clear carry, `Add (16 - k)` leaves `(x - k) mod 16` and sets
the carry exactly when `x >= k`. The spec marks the rule as its own derivation. -/
def Obligations.SubtractByAdding : Prop :=
  ∀ (s : State) (k : Nat), s.c = 0 → 1 ≤ k → k ≤ 15 →
    (∃ t, exec (.addA (BitVec.ofNat 4 (16 - k))) s = .next t ∧
      (t.a.toNat : Int) = ((s.a.toNat : Int) - k) % 16 ∧ (t.c = 1 ↔ k ≤ s.a.toNat)) ∧
    (∃ t, exec (.addB (BitVec.ofNat 4 (16 - k))) s = .next t ∧
      (t.b.toNat : Int) = ((s.b.toNat : Int) - k) % 16 ∧ (t.c = 1 ↔ k ≤ s.b.toNat))

/-! ### Control transfer and the end of the ROM -/

/-- 43_jump.md (corner cases of `Jnc`) and 70_reset_and_hazards.md section 3: a `Jnc` in the cycle after any
instruction that is not an Add is taken, whatever the carry was before. -/
def Obligations.JncAfterNonAddTaken : Prop :=
  ∀ (s t : State) (i : Instr) (im : Nibble), s.running → decode s.fetch.1 = .ok i → i.isAdd = false →
    step s = .next t → t.rstNow = false → decode t.fetch.1 = .ok (.jnc im) →
    ∃ u, step t = .next u ∧ u.pc.toNat = im.toNat ∧ u.c = 0

/-- 43_jump.md (targets beyond the ROM): a jump to a target beyond `ROM_LEN` is legal and lands in a fixed point at
once, with `pc` at the target. The spec marks the rule as its own derivation; it rests on decisions D3 and D4, log
entry 7. -/
def Obligations.JumpBeyondRomStays : Prop :=
  ∀ (s : State) (im : Nibble), s.running → decode s.fetch.1 = .ok (.jmp im) → s.romLen.val < im.toNat →
    ∃ t, step s = .next t ∧ t.pc.toNat = im.toNat ∧ t.fixedPoint

/-- 40_cycle.md section 5 (running off the end): from `pc > ROM_LEN`, with no reset, a run of any length goes on and
changes nothing at all. The spec marks the rule as its own derivation; it rests on decisions D3 and D4, log entry 7. -/
def Obligations.BeyondEndStaysForEver : Prop :=
  ∀ (n : Nat) (s : State), s.flt = 0 → s.noReset → s.romLen.val < s.pc.toNat →
    ∃ t, Sys2Proof.core.run n s = .next t ∧ s.sameCore t ∧ s.sameRom t

/-- 40_cycle.md section 5: a program that falls through the end of a ROM of at most 254 bytes executes one `AddA 0` at
`pc == ROM_LEN`, then stays at `ROM_LEN + 1` with every register as it was, for ever. The spec marks the rule as
its own derivation; it rests on decisions D3 and D4, log entry 7. -/
def Obligations.FallThroughReachesFixedPoint : Prop :=
  ∀ (n : Nat) (s : State), s.flt = 0 → s.noReset → s.romLen.val ≤ 254 → s.pc.toNat = s.romLen.val →
    ∃ t, Sys2Proof.core.run (n + 1) s = .next t ∧ t.pc.toNat = s.romLen.val + 1 ∧
      t.a = s.a ∧ t.b = s.b ∧ t.c = s.c ∧ t.out = s.out ∧ t.flt = 0 ∧ t.fixedPoint

/-- 70_reset_and_hazards.md section 6, candidate (b): the rules give exactly two kinds of fixed point: `pc > ROM_LEN`,
and a `Jmp` or `Jnc` to its own index with the carry clear. Part of decision D13, log entry 15; it rests on
decisions D3 and D4, log entry 7. -/
def Obligations.FixedPointsAreExactlyThese : Prop :=
  ∀ s : State, s.fixedPoint ↔ s.flt = 0 ∧
    (s.romLen.val < s.pc.toNat ∨
      (s.pc.toNat < s.romLen.val ∧ s.c = 0 ∧ ∃ im : Nibble, im.toNat = s.pc.toNat ∧
        (decode (s.romRead s.pc) = .ok (.jmp im) ∨ decode (s.romRead s.pc) = .ok (.jnc im))))

/-- 70_reset_and_hazards.md section 6: a run that has ended at a fixed point is still cycling, and stays ended.
Part of decision D13, log entry 15; that `k` counts every clock edge is the model's choice in the same entry, and with
no reset ahead every edge counted here is a cycle. -/
def Obligations.EndedAtFixedPointStaysEnded : Prop :=
  ∀ (n k : Nat) (s : State), EndOfRun.atFixedPoint.ended k s → s.noReset →
    ∃ t, Sys2Proof.core.run n s = .next t ∧ s.sameCore t ∧ EndOfRun.atFixedPoint.ended (k + n) t

/-- 20_memory.md section 5 and 40_cycle.md section 2: `pc` never gets further than one past the one-past-the-end index,
or a jump target; every step keeps that. The spec marks the cases as its own derivation; they rest on decisions D3 and
D4, log entry 7. -/
def Obligations.PcStaysInReach : Prop :=
  ∀ s t : State, s.pcInReach → step s = .next t → t.pcInReach

/-! ### The port -/

/-- 20_memory.md section 6, rule (2) (decision D6): `InA` and `InB` return the value the host drives in their own
cycle, not an earlier or later one. -/
def Obligations.InputOfTheSameCycle : Prop :=
  ∀ (s : State) (v im : Nibble), s.flt = 0 →
    (decode s.fetch.1 = .ok (.inA im) → ∃ t, step (s.drivenNow ⟨false, v⟩) = .next t ∧ t.a = v ∧ t.host = s.host) ∧
    (decode s.fetch.1 = .ok (.inB im) → ∃ t, step (s.drivenNow ⟨false, v⟩) = .next t ∧ t.b = v ∧ t.host = s.host)

/-- 10_state.md section 5 and 44_io.md (port laws; decision D6): in a cycle that executes neither `InA` nor `InB` the
value on the input port has no effect at all. Log entry 1. -/
def Obligations.InputUnseenByOthers : Prop :=
  ∀ (s : State) (i : Instr) (v w : Nibble), s.flt = 0 → decode s.fetch.1 = .ok i → i.readsPort = false →
    ∃ t, step (s.drivenNow ⟨false, v⟩) = .next t ∧ step (s.drivenNow ⟨false, w⟩) = .next t

/-- The model's own form of 10_state.md section 5 (decision D6; log entries 1 and 2): each clock edge takes one entry
of the host's list; past its end `in` is the free value of that edge and `rst` is low. -/
def Obligations.EachEdgeTakesOneInput : Prop :=
  (∀ s t : State, step s = .next t → t.host = s.host.tail ∧ t.edges = s.edges + 1) ∧
  (∀ (s : State) (e : EdgeInput) (es : List EdgeInput), s.host = e :: es → s.inNow = e.inPort ∧ s.rstNow = e.rst) ∧
  (∀ s : State, s.host = [] → s.inNow = Config.freeInput s.edges ∧ s.rstNow = false)

/-! ### The fault -/

/-- Decision D7 (60_exceptions.md section 1): on an illegal byte the step has the single outcome fault, carrying the
4-bit code; the state then has `pc` advanced past the byte, the latch set, and `a`, `b`, `c`, `out` as before. -/
def Obligations.IllegalByteLatchesFault : Prop :=
  ∀ (s : State) (bits : Nibble), s.running → decode s.fetch.1 = .error (.unsupportedOpcode bits) →
    ∃ t, step s = .fault (.unsupportedOpcode bits t) ∧ s.pc.toNat < s.romLen.val ∧
      bits = opcodeField (s.romRead s.pc) ∧ bits ∈ illegalOpcodes ∧ t.pc.toNat = (s.pc.toNat + 1) % 256 ∧
      t.a = s.a ∧ t.b = s.b ∧ t.c = s.c ∧ t.out = s.out ∧ t.flt = 1 ∧ t.fltCode = bits ∧ s.sameRom t

/-- 60_exceptions.md section 1: the one exception is raised exactly when a byte of the ROM with an illegal high nibble
stands at `pc`; fetching past the end never raises it. That the step's outcome is then a fault is decision D7, log entry 8; that the
byte past the end is 0x00 is decision D3, log entry 7. -/
def Obligations.FaultExactlyOnIllegalRomByte : Prop :=
  ∀ s : State, s.running →
    ((∃ f, step s = .fault f) ↔ (s.pc.toNat < s.romLen.val ∧ opcodeField (s.romRead s.pc) ∈ illegalOpcodes))

/-- Decision D7 (60_exceptions.md section 3): while `flt` is 1 and `rst` is low no cycle is performed and every
architectural field holds. -/
def Obligations.LatchedCoreHolds : Prop :=
  ∀ s : State, s.flt = 1 → s.rstNow = false →
    ∃ t, step s = .fault (.stopped s.fltCode t) ∧ s.sameCore t ∧ s.sameRom t

/-- Decisions D7 and D13 (60_exceptions.md section 3, 70_reset_and_hazards.md section 6): a faulted state is never an
end of a run, whichever candidate the claim chooses and however many edges have passed, and neither is the state any
fault leaves. Log entries 8 and 15. -/
def Obligations.FaultedStateNeverEnded : Prop :=
  (∀ (e : EndOfRun) (k : Nat) (s : State), s.flt = 1 → ¬ e.ended k s) ∧
  (∀ (s : State) (f : Fault), step s = .fault f → ∀ (e : EndOfRun) (k : Nat), ¬ e.ended k f.state)

/-! ### Invariants -/

/-- The reset state meets the invariants. Its registers and its latch are decision D8 (log entry 9). Its ROM is the
model's own: the spec says that the ROM is not reset, and State.reset lists no byte of it in the model's canonical form
(log entry 4) under the nominal `ROM_LEN` (log entry 3). -/
def Obligations.ResetMeetsInvariant : Prop := State.reset.Inv ∧ State.reset.pcInReach

/-- 10_state.md sections 6 and 7, 20_memory.md section 1: every step keeps the invariant, and the state a fault leaves
meets it too: the latch holds 0 while clear and an illegal opcode while set, and the ROM stays in canonical form.
The latch is decision D7, log entry 8; the canonical form is the model's own, log entry 4. -/
def Obligations.StepKeepsInvariant : Prop :=
  ∀ s : State, s.Inv → (∀ t, step s = .next t → t.Inv) ∧ (∀ f, step s = .fault f → f.state.Inv)

/-- 70_reset_and_hazards.md section 2: where no byte of the ROM has an illegal high nibble and the latch is clear, every
step answers a next state of which the same is true, so a run of any length, with resets wherever the host puts them,
never faults. That past the end the byte is 0x00 is decision D3, log entry 7. -/
def Obligations.LegalRomNeverFaults : Prop :=
  (∀ s : State, s.romLegal → s.flt = 0 → ∃ t, step s = .next t ∧ t.romLegal ∧ t.flt = 0) ∧
  (∀ (n : Nat) (s : State), s.romLegal → s.flt = 0 → ∃ t, Sys2Proof.core.run n s = .next t ∧ t.romLegal ∧ t.flt = 0)

/-! ### The host before a run -/

/-- 20_memory.md section 1 and 70_reset_and_hazards.md section 5 (decision D2): the host may supply any bytes up to 256
of them; the ROM reader then returns them in order and 0x00 beyond, and the registers stay. More are refused.
That the byte beyond the end is 0x00 is decision D3, log entry 7. The clause `t.romInv`, that the loaded ROM is in
canonical form and lists no index at or beyond `ROM_LEN`, is the model's own form, log entry 4. -/
def Obligations.LoadedRomReadsBack : Prop :=
  (∀ (s : State) (bytes : List Byte), bytes.length ≤ 256 → ∃ t, s.loadRom bytes = some t ∧
    t.romLen.val = bytes.length ∧ (∀ x : Index, t.romRead x = bytes.getD x.toNat 0x00) ∧ t.romInv ∧ s.sameCore t) ∧
  (∀ (s : State) (bytes : List Byte), 256 < bytes.length → s.loadRom bytes = none)

/-- The model's own interface (log entry 5) against 20_memory.md section 1: an instruction's byte placed at `pc` is the
byte the next step fetches and runs, from every state with a canonical ROM. The canonical form (`romInv`) is the
model's own, log entry 4. -/
def Obligations.PlacedInstructionRuns : Prop :=
  ∀ (s : State) (i : Instr), s.romInv →
    decodeTableWord 8 (encode i).toNat = some i ∧ (s.withFetchWord 8 (encode i).toNat).running ∧
    (s.withFetchWord 8 (encode i).toNat).fetch.1 = encode i ∧ (s.withFetchWord 8 (encode i).toNat).romInv ∧
    step (s.withFetchWord 8 (encode i).toNat) = endCycle (exec i (s.withFetchWord 8 (encode i).toNat).fetch.2)
end

