-- ==== Sys2Proof/Laws/Decode.lean ====
section
/-! SUPPORT. What the fields of a byte and of an encoding are, and everything decode can answer. -/

namespace Sys2Proof

theorem opcodeField_toNat (byte : Byte) : (opcodeField byte).toNat = byte.toNat / 16 := by
  have := byte.isLt
  simp only [opcodeField, BitVec.extractLsb'_toNat, Nat.shiftRight_eq_div_pow]
  omega

theorem imField_toNat (byte : Byte) : (imField byte).toNat = byte.toNat % 16 := by
  simp [imField, BitVec.extractLsb'_toNat]

/-- `byte = {opcode, im} = opcode * 16 + im` (R50). -/
theorem append_toNat (op im : Nibble) : (op ++ im : Byte).toNat = op.toNat * 16 + im.toNat := by
  have h := Nat.shiftLeft_add_eq_or_of_lt (i := 4) (show im.toNat < 2 ^ 4 from im.isLt) op.toNat
  exact (BitVec.toNat_append op im).trans (by rw [← h, Nat.shiftLeft_eq])

/-- The high nibble of `{opcode, im}` is the opcode. -/
@[simp] theorem opcodeField_append (op im : Nibble) : opcodeField (op ++ im) = op := by
  have := im.isLt
  apply BitVec.eq_of_toNat_eq
  rw [opcodeField_toNat, append_toNat]
  omega

/-- The low nibble of `{opcode, im}` is the immediate. -/
@[simp] theorem imField_append (op im : Nibble) : imField (op ++ im) = im := by
  have := im.isLt
  apply BitVec.eq_of_toNat_eq
  rw [imField_toNat, append_toNat]
  omega

/-- A byte is its two nibbles. -/
theorem append_fields (byte : Byte) : opcodeField byte ++ imField byte = byte := by
  apply BitVec.eq_of_toNat_eq
  rw [append_toNat, opcodeField_toNat, imField_toNat]
  omega

/-- Everything decode can answer: the instruction whose fields are the byte's, or the refusal of one of the four
illegal opcodes (R58, R73). -/
theorem decode_cases (byte : Byte) :
    (∃ i, decode byte = .ok i ∧ i.opcode = opcodeField byte ∧ i.im = imField byte) ∨
    (decode byte = .error (.unsupportedOpcode (opcodeField byte)) ∧ opcodeField byte ∈ [8#4, 10#4, 12#4, 13#4]) := by
  have key : ∀ op : Nibble, op.toNat = 0 ∨ op.toNat = 1 ∨ op.toNat = 2 ∨ op.toNat = 3 ∨ op.toNat = 4 ∨ op.toNat = 5 ∨
      op.toNat = 6 ∨ op.toNat = 7 ∨ op.toNat = 9 ∨ op.toNat = 11 ∨ op.toNat = 14 ∨ op.toNat = 15 ∨
      op ∈ [8#4, 10#4, 12#4, 13#4] := by decide
  have lift : ∀ (op : Nibble) (n : Nat), op.toNat = n → BitVec.ofNat 4 n = op := by
    rintro op n rfl
    simp
  unfold decode
  rcases key (opcodeField byte) with h | h | h | h | h | h | h | h | h | h | h | h | h
  · exact .inl ⟨.addA (imField byte), by simp only [h], lift _ _ h, rfl⟩
  · exact .inl ⟨.movAB (imField byte), by simp only [h], lift _ _ h, rfl⟩
  · exact .inl ⟨.inA (imField byte), by simp only [h], lift _ _ h, rfl⟩
  · exact .inl ⟨.movA (imField byte), by simp only [h], lift _ _ h, rfl⟩
  · exact .inl ⟨.movBA (imField byte), by simp only [h], lift _ _ h, rfl⟩
  · exact .inl ⟨.addB (imField byte), by simp only [h], lift _ _ h, rfl⟩
  · exact .inl ⟨.inB (imField byte), by simp only [h], lift _ _ h, rfl⟩
  · exact .inl ⟨.movB (imField byte), by simp only [h], lift _ _ h, rfl⟩
  · exact .inl ⟨.outB (imField byte), by simp only [h], lift _ _ h, rfl⟩
  · exact .inl ⟨.out (imField byte), by simp only [h], lift _ _ h, rfl⟩
  · exact .inl ⟨.jnc (imField byte), by simp only [h], lift _ _ h, rfl⟩
  · exact .inl ⟨.jmp (imField byte), by simp only [h], lift _ _ h, rfl⟩
  · refine .inr ⟨?_, h⟩
    simp only [List.mem_cons, List.not_mem_nil, or_false] at h
    rcases h with h | h | h | h <;> rw [h] <;> rfl

/-- The byte fetched past the end is `AddA 0` (R72). -/
@[simp] theorem decode_zero : decode 0x00 = .ok (.addA 0) := rfl

/-- No instruction's code is illegal, and an instruction is told by its code and its immediate (R53). -/
theorem Instr.opcode_legal (i : Instr) : i.opcode ∉ [8#4, 10#4, 12#4, 13#4] := by
  cases i <;> simp [Instr.opcode]

end Sys2Proof
end

