-- ==== Sys2Proof/Laws/State.lean ====
section
/-! SUPPORT. One lemma per field per update of State, each true by definition, so that no later proof unfolds a
record update. -/

namespace Sys2Proof.Machine

@[simp] theorem State.setA_pc (s : State) (v : Nibble) : (s.setA v).pc = s.pc := rfl
@[simp] theorem State.setA_a (s : State) (v : Nibble) : (s.setA v).a = v := rfl
@[simp] theorem State.setA_b (s : State) (v : Nibble) : (s.setA v).b = s.b := rfl
@[simp] theorem State.setA_c (s : State) (v : Nibble) : (s.setA v).c = s.c := rfl
@[simp] theorem State.setA_out (s : State) (v : Nibble) : (s.setA v).out = s.out := rfl
@[simp] theorem State.setA_flt (s : State) (v : Nibble) : (s.setA v).flt = s.flt := rfl
@[simp] theorem State.setA_fltCode (s : State) (v : Nibble) : (s.setA v).fltCode = s.fltCode := rfl
@[simp] theorem State.setA_romLen (s : State) (v : Nibble) : (s.setA v).romLen = s.romLen := rfl
@[simp] theorem State.setA_rom (s : State) (v : Nibble) : (s.setA v).rom = s.rom := rfl
@[simp] theorem State.setA_host (s : State) (v : Nibble) : (s.setA v).host = s.host := rfl
@[simp] theorem State.setA_edges (s : State) (v : Nibble) : (s.setA v).edges = s.edges := rfl

@[simp] theorem State.setB_pc (s : State) (v : Nibble) : (s.setB v).pc = s.pc := rfl
@[simp] theorem State.setB_a (s : State) (v : Nibble) : (s.setB v).a = s.a := rfl
@[simp] theorem State.setB_b (s : State) (v : Nibble) : (s.setB v).b = v := rfl
@[simp] theorem State.setB_c (s : State) (v : Nibble) : (s.setB v).c = s.c := rfl
@[simp] theorem State.setB_out (s : State) (v : Nibble) : (s.setB v).out = s.out := rfl
@[simp] theorem State.setB_flt (s : State) (v : Nibble) : (s.setB v).flt = s.flt := rfl
@[simp] theorem State.setB_fltCode (s : State) (v : Nibble) : (s.setB v).fltCode = s.fltCode := rfl
@[simp] theorem State.setB_romLen (s : State) (v : Nibble) : (s.setB v).romLen = s.romLen := rfl
@[simp] theorem State.setB_rom (s : State) (v : Nibble) : (s.setB v).rom = s.rom := rfl
@[simp] theorem State.setB_host (s : State) (v : Nibble) : (s.setB v).host = s.host := rfl
@[simp] theorem State.setB_edges (s : State) (v : Nibble) : (s.setB v).edges = s.edges := rfl

@[simp] theorem State.setC_pc (s : State) (v : Bit) : (s.setC v).pc = s.pc := rfl
@[simp] theorem State.setC_a (s : State) (v : Bit) : (s.setC v).a = s.a := rfl
@[simp] theorem State.setC_b (s : State) (v : Bit) : (s.setC v).b = s.b := rfl
@[simp] theorem State.setC_c (s : State) (v : Bit) : (s.setC v).c = v := rfl
@[simp] theorem State.setC_out (s : State) (v : Bit) : (s.setC v).out = s.out := rfl
@[simp] theorem State.setC_flt (s : State) (v : Bit) : (s.setC v).flt = s.flt := rfl
@[simp] theorem State.setC_fltCode (s : State) (v : Bit) : (s.setC v).fltCode = s.fltCode := rfl
@[simp] theorem State.setC_romLen (s : State) (v : Bit) : (s.setC v).romLen = s.romLen := rfl
@[simp] theorem State.setC_rom (s : State) (v : Bit) : (s.setC v).rom = s.rom := rfl
@[simp] theorem State.setC_host (s : State) (v : Bit) : (s.setC v).host = s.host := rfl
@[simp] theorem State.setC_edges (s : State) (v : Bit) : (s.setC v).edges = s.edges := rfl

@[simp] theorem State.setOut_pc (s : State) (v : Nibble) : (s.setOut v).pc = s.pc := rfl
@[simp] theorem State.setOut_a (s : State) (v : Nibble) : (s.setOut v).a = s.a := rfl
@[simp] theorem State.setOut_b (s : State) (v : Nibble) : (s.setOut v).b = s.b := rfl
@[simp] theorem State.setOut_c (s : State) (v : Nibble) : (s.setOut v).c = s.c := rfl
@[simp] theorem State.setOut_out (s : State) (v : Nibble) : (s.setOut v).out = v := rfl
@[simp] theorem State.setOut_flt (s : State) (v : Nibble) : (s.setOut v).flt = s.flt := rfl
@[simp] theorem State.setOut_fltCode (s : State) (v : Nibble) : (s.setOut v).fltCode = s.fltCode := rfl
@[simp] theorem State.setOut_romLen (s : State) (v : Nibble) : (s.setOut v).romLen = s.romLen := rfl
@[simp] theorem State.setOut_rom (s : State) (v : Nibble) : (s.setOut v).rom = s.rom := rfl
@[simp] theorem State.setOut_host (s : State) (v : Nibble) : (s.setOut v).host = s.host := rfl
@[simp] theorem State.setOut_edges (s : State) (v : Nibble) : (s.setOut v).edges = s.edges := rfl

@[simp] theorem State.setPc_pc (s : State) (v : Index) : (s.setPc v).pc = v := rfl
@[simp] theorem State.setPc_a (s : State) (v : Index) : (s.setPc v).a = s.a := rfl
@[simp] theorem State.setPc_b (s : State) (v : Index) : (s.setPc v).b = s.b := rfl
@[simp] theorem State.setPc_c (s : State) (v : Index) : (s.setPc v).c = s.c := rfl
@[simp] theorem State.setPc_out (s : State) (v : Index) : (s.setPc v).out = s.out := rfl
@[simp] theorem State.setPc_flt (s : State) (v : Index) : (s.setPc v).flt = s.flt := rfl
@[simp] theorem State.setPc_fltCode (s : State) (v : Index) : (s.setPc v).fltCode = s.fltCode := rfl
@[simp] theorem State.setPc_romLen (s : State) (v : Index) : (s.setPc v).romLen = s.romLen := rfl
@[simp] theorem State.setPc_rom (s : State) (v : Index) : (s.setPc v).rom = s.rom := rfl
@[simp] theorem State.setPc_host (s : State) (v : Index) : (s.setPc v).host = s.host := rfl
@[simp] theorem State.setPc_edges (s : State) (v : Index) : (s.setPc v).edges = s.edges := rfl

@[simp] theorem State.latchFault_pc (s : State) (v : Nibble) : (s.latchFault v).pc = s.pc := rfl
@[simp] theorem State.latchFault_a (s : State) (v : Nibble) : (s.latchFault v).a = s.a := rfl
@[simp] theorem State.latchFault_b (s : State) (v : Nibble) : (s.latchFault v).b = s.b := rfl
@[simp] theorem State.latchFault_c (s : State) (v : Nibble) : (s.latchFault v).c = s.c := rfl
@[simp] theorem State.latchFault_out (s : State) (v : Nibble) : (s.latchFault v).out = s.out := rfl
@[simp] theorem State.latchFault_flt (s : State) (v : Nibble) : (s.latchFault v).flt = 1 := rfl
@[simp] theorem State.latchFault_fltCode (s : State) (v : Nibble) : (s.latchFault v).fltCode = v := rfl
@[simp] theorem State.latchFault_romLen (s : State) (v : Nibble) : (s.latchFault v).romLen = s.romLen := rfl
@[simp] theorem State.latchFault_rom (s : State) (v : Nibble) : (s.latchFault v).rom = s.rom := rfl
@[simp] theorem State.latchFault_host (s : State) (v : Nibble) : (s.latchFault v).host = s.host := rfl
@[simp] theorem State.latchFault_edges (s : State) (v : Nibble) : (s.latchFault v).edges = s.edges := rfl

@[simp] theorem State.resetCore_pc (s : State) : s.resetCore.pc = 0 := rfl
@[simp] theorem State.resetCore_a (s : State) : s.resetCore.a = 0 := rfl
@[simp] theorem State.resetCore_b (s : State) : s.resetCore.b = 0 := rfl
@[simp] theorem State.resetCore_c (s : State) : s.resetCore.c = 0 := rfl
@[simp] theorem State.resetCore_out (s : State) : s.resetCore.out = 0 := rfl
@[simp] theorem State.resetCore_flt (s : State) : s.resetCore.flt = 0 := rfl
@[simp] theorem State.resetCore_fltCode (s : State) : s.resetCore.fltCode = 0 := rfl
@[simp] theorem State.resetCore_romLen (s : State) : s.resetCore.romLen = s.romLen := rfl
@[simp] theorem State.resetCore_rom (s : State) : s.resetCore.rom = s.rom := rfl
@[simp] theorem State.resetCore_host (s : State) : s.resetCore.host = s.host := rfl
@[simp] theorem State.resetCore_edges (s : State) : s.resetCore.edges = s.edges := rfl

@[simp] theorem State.passEdge_pc (s : State) : s.passEdge.pc = s.pc := rfl
@[simp] theorem State.passEdge_a (s : State) : s.passEdge.a = s.a := rfl
@[simp] theorem State.passEdge_b (s : State) : s.passEdge.b = s.b := rfl
@[simp] theorem State.passEdge_c (s : State) : s.passEdge.c = s.c := rfl
@[simp] theorem State.passEdge_out (s : State) : s.passEdge.out = s.out := rfl
@[simp] theorem State.passEdge_flt (s : State) : s.passEdge.flt = s.flt := rfl
@[simp] theorem State.passEdge_fltCode (s : State) : s.passEdge.fltCode = s.fltCode := rfl
@[simp] theorem State.passEdge_romLen (s : State) : s.passEdge.romLen = s.romLen := rfl
@[simp] theorem State.passEdge_rom (s : State) : s.passEdge.rom = s.rom := rfl
@[simp] theorem State.passEdge_host (s : State) : s.passEdge.host = s.host.tail := rfl
@[simp] theorem State.passEdge_edges (s : State) : s.passEdge.edges = s.edges + 1 := rfl

/-- A write to a register, the latch or the host's levels leaves what the ROM reader answers. -/
theorem State.romRead_congr (s t : State) (hl : t.romLen = s.romLen) (hr : t.rom = s.rom) (x : Index) :
    t.romRead x = s.romRead x := by
  simp [State.romRead, hl, hr]

@[simp] theorem State.setA_romRead (s : State) (v : Nibble) (x : Index) : (s.setA v).romRead x = s.romRead x := rfl
@[simp] theorem State.setB_romRead (s : State) (v : Nibble) (x : Index) : (s.setB v).romRead x = s.romRead x := rfl
@[simp] theorem State.setC_romRead (s : State) (v : Bit) (x : Index) : (s.setC v).romRead x = s.romRead x := rfl
@[simp] theorem State.setOut_romRead (s : State) (v : Nibble) (x : Index) : (s.setOut v).romRead x = s.romRead x := rfl
@[simp] theorem State.setPc_romRead (s : State) (v : Index) (x : Index) : (s.setPc v).romRead x = s.romRead x := rfl
@[simp] theorem State.latchFault_romRead (s : State) (v : Nibble) (x : Index) : (s.latchFault v).romRead x = s.romRead x := rfl
@[simp] theorem State.resetCore_romRead (s : State) (x : Index) : s.resetCore.romRead x = s.romRead x := rfl
@[simp] theorem State.passEdge_romRead (s : State) (x : Index) : s.passEdge.romRead x = s.romRead x := rfl

end Sys2Proof.Machine
end

