-- ==== Sys2Proof/Laws/Exec.lean ====
section
/-! SUPPORT. What the shared operations and the handlers can do, said once. -/

namespace Sys2Proof.Machine

/-- Everything fetch can do (R72): in the third case `pc` and the ROM are not touched. -/
theorem State.fetch_cases (s : State) :
    (s.pc.toNat < s.romLen.val ∧ s.fetch = (Memory.read s.rom s.pc.toNat, s.setPc (s.pc + 1))) ∨
    (s.pc.toNat = s.romLen.val ∧ s.fetch = (0x00, s.setPc (s.pc + 1))) ∨
    (s.romLen.val < s.pc.toNat ∧ s.fetch = (0x00, s)) := by
  unfold State.fetch
  rcases Nat.lt_trichotomy s.pc.toNat s.romLen.val with h | h | h
  · exact .inl ⟨h, by rw [if_neg (by omega), State.romRead, if_pos h]⟩
  · exact .inr (.inl ⟨h, by rw [if_neg (by omega), State.romRead, if_neg (by omega)]⟩)
  · exact .inr (.inr ⟨h, if_pos h⟩)

/-- Fetch writes `pc` and nothing else. -/
theorem State.fetch_frame (s : State) : ∃ p : Index, s.fetch.2 = s.setPc p := by
  rcases s.fetch_cases with ⟨_, h⟩ | ⟨_, h⟩ | ⟨_, h⟩
  · exact ⟨_, by rw [h]⟩
  · exact ⟨_, by rw [h]⟩
  · exact ⟨s.pc, by rw [h]; rfl⟩

@[simp] theorem State.fetch_a (s : State) : s.fetch.2.a = s.a := by obtain ⟨p, h⟩ := s.fetch_frame; simp [h]
@[simp] theorem State.fetch_b (s : State) : s.fetch.2.b = s.b := by obtain ⟨p, h⟩ := s.fetch_frame; simp [h]
@[simp] theorem State.fetch_c (s : State) : s.fetch.2.c = s.c := by obtain ⟨p, h⟩ := s.fetch_frame; simp [h]
@[simp] theorem State.fetch_out (s : State) : s.fetch.2.out = s.out := by obtain ⟨p, h⟩ := s.fetch_frame; simp [h]
@[simp] theorem State.fetch_flt (s : State) : s.fetch.2.flt = s.flt := by obtain ⟨p, h⟩ := s.fetch_frame; simp [h]
@[simp] theorem State.fetch_fltCode (s : State) : s.fetch.2.fltCode = s.fltCode := by
  obtain ⟨p, h⟩ := s.fetch_frame; simp [h]
@[simp] theorem State.fetch_romLen (s : State) : s.fetch.2.romLen = s.romLen := by
  obtain ⟨p, h⟩ := s.fetch_frame; simp [h]
@[simp] theorem State.fetch_rom (s : State) : s.fetch.2.rom = s.rom := by obtain ⟨p, h⟩ := s.fetch_frame; simp [h]
@[simp] theorem State.fetch_host (s : State) : s.fetch.2.host = s.host := by obtain ⟨p, h⟩ := s.fetch_frame; simp [h]
@[simp] theorem State.fetch_edges (s : State) : s.fetch.2.edges = s.edges := by obtain ⟨p, h⟩ := s.fetch_frame; simp [h]
@[simp] theorem State.fetch_inNow (s : State) : s.fetch.2.inNow = s.inNow := by
  simp [State.inNow, State.edgeInput]

/-- An illegal byte can only come from the ROM (R131): past the end the byte is 0x00, which decodes. -/
theorem State.fetch_illegal (s : State) (h : opcodeField s.fetch.1 ∈ illegalOpcodes) :
    s.pc.toNat < s.romLen.val ∧ s.fetch = (s.romRead s.pc, s.setPc (s.pc + 1)) := by
  rcases s.fetch_cases with ⟨hlt, hf⟩ | ⟨_, hf⟩ | ⟨_, hf⟩
  · exact ⟨hlt, by rw [hf, State.romRead, if_pos hlt]⟩
  · rw [hf] at h; exact absurd (show opcodeField 0x00 ∈ illegalOpcodes from h) (by decide)
  · rw [hf] at h; exact absurd (show opcodeField 0x00 ∈ illegalOpcodes from h) (by decide)

/-- What the handler of an instruction leaves, field by field: the access matrix (R22). -/
def handled (i : Instr) (s : State) : State :=
  match i with
  | .addA im => { s with a := sumResult (exactSum s.a im), c := carryAfterAdd s.c (exactSum s.a im) }
  | .addB im => { s with b := sumResult (exactSum s.b im), c := carryAfterAdd s.c (exactSum s.b im) }
  | .movA im => { s with a := im, c := 0 }
  | .movB im => { s with b := im, c := 0 }
  | .movAB _ => { s with a := s.b, c := 0 }
  | .movBA _ => { s with b := s.a, c := 0 }
  | .jmp im => { s with pc := jumpTarget im, c := 0 }
  | .jnc im => { s with pc := if s.c = 0 then jumpTarget im else s.pc, c := 0 }
  | .inA _ => { s with a := s.inNow, c := 0 }
  | .inB _ => { s with b := s.inNow, c := 0 }
  | .out im => { s with out := im, c := 0 }
  | .outB _ => { s with out := s.b, c := 0 }

/-- Every handler is total: it answers a next state (R74, R133). -/
theorem exec_eq (i : Instr) (s : State) : exec i s = .next (handled i s) := by
  cases i <;> try rfl
  case jnc im =>
    simp only [exec, execJnc, handled]
    split <;> rfl

@[simp] theorem handled_flt (i : Instr) (s : State) : (handled i s).flt = s.flt := by cases i <;> rfl
@[simp] theorem handled_fltCode (i : Instr) (s : State) : (handled i s).fltCode = s.fltCode := by cases i <;> rfl
@[simp] theorem handled_romLen (i : Instr) (s : State) : (handled i s).romLen = s.romLen := by cases i <;> rfl
@[simp] theorem handled_rom (i : Instr) (s : State) : (handled i s).rom = s.rom := by cases i <;> rfl
@[simp] theorem handled_host (i : Instr) (s : State) : (handled i s).host = s.host := by cases i <;> rfl
@[simp] theorem handled_edges (i : Instr) (s : State) : (handled i s).edges = s.edges := by cases i <;> rfl

/-- A jump target is the immediate's value (R110). -/
@[simp] theorem jumpTarget_toNat (im : Nibble) : (jumpTarget im).toNat = im.toNat := by
  have := im.isLt
  simp only [jumpTarget, BitVec.toNat_setWidth]
  omega

/-- The result of an Add is the sum modulo 16 (R90). -/
@[simp] theorem sumResult_toNat (sum : Nat) : (sumResult sum).toNat = sum % 16 := BitVec.toNat_ofNat sum 4

/-- Adding 0 leaves `a` and the carry as they were (R56, R77). -/
theorem handled_addA_zero (s : State) : handled (.addA 0) s = s := by
  have hlt := s.a.isLt
  have ha : sumResult (exactSum s.a 0) = s.a := by
    apply BitVec.eq_of_toNat_eq
    rw [sumResult_toNat]
    show (s.a.toNat + 0) % 16 = s.a.toNat
    omega
  have hc : carryAfterAdd s.c (exactSum s.a 0) = s.c := if_neg (by show ¬ 15 < s.a.toNat + 0; omega)
  simp only [handled, ha, hc]

/-- Only a jump writes `pc` beyond fetch's advance (R112). -/
theorem handled_pc (i : Instr) (s : State) :
    (handled i s).pc = s.pc ∨ ∃ im, (i = .jmp im ∨ (i = .jnc im ∧ s.c = 0)) ∧ (handled i s).pc = jumpTarget im := by
  cases i <;> try exact .inl rfl
  case jmp im => exact .inr ⟨im, .inl rfl, rfl⟩
  case jnc im =>
    by_cases h : s.c = 0
    · exact .inr ⟨im, .inr ⟨rfl, h⟩, by simp only [handled, if_pos h]⟩
    · exact .inl (by simp only [handled, if_neg h])

end Sys2Proof.Machine
end

