-- ==== Sys2Proof/Laws/Memory.lean ====
section
/-! SUPPORT. The ROM's contents: read after write, and the canonical form is kept by every memory operation. -/

namespace Sys2Proof.Machine

theorem Memory.read_eq_zero_of_wfFrom {lo : Nat} {m : Memory} (h : Memory.wfFrom lo m = true) {x : Nat} (hx : x < lo) :
    Memory.read m x = 0x00 := by
  induction m generalizing lo with
  | nil => rfl
  | cons cell m ih =>
    obtain ⟨a, v⟩ := cell
    simp only [Memory.wfFrom, Bool.and_eq_true, decide_eq_true_eq] at h
    have hne : x ≠ a := by omega
    simp only [Memory.read, if_neg hne]
    exact ih h.2 (by omega)

theorem Memory.wfFrom_mono {lo lo' : Nat} {m : Memory} (h : Memory.wfFrom lo m = true) (hle : lo' ≤ lo) :
    Memory.wfFrom lo' m = true := by
  cases m with
  | nil => rfl
  | cons cell m =>
    obtain ⟨a, v⟩ := cell
    simp only [Memory.wfFrom, Bool.and_eq_true, decide_eq_true_eq] at h ⊢
    exact ⟨⟨by omega, h.1.2⟩, h.2⟩

theorem Memory.wfFrom_write {lo : Nat} {m : Memory} (h : Memory.wfFrom lo m = true) {x : Nat} (hx : lo ≤ x) (v : Byte) :
    Memory.wfFrom lo (Memory.write m x v) = true := by
  induction m generalizing lo with
  | nil =>
    simp only [Memory.write]
    split <;> simp_all [Memory.wfFrom]
  | cons cell m ih =>
    obtain ⟨a, w⟩ := cell
    have h' := h
    simp only [Memory.wfFrom, Bool.and_eq_true, decide_eq_true_eq] at h'
    simp only [Memory.write]
    split
    · split
      · exact h
      · simp only [Memory.wfFrom, Bool.and_eq_true, decide_eq_true_eq]
        exact ⟨⟨hx, by assumption⟩, ⟨by omega, h'.1.2⟩, h'.2⟩
    · split
      · split
        · exact Memory.wfFrom_mono h'.2 (by omega)
        · simp only [Memory.wfFrom, Bool.and_eq_true, decide_eq_true_eq]
          exact ⟨⟨hx, by assumption⟩, by simpa [‹x = a›] using h'.2⟩
      · simp only [Memory.wfFrom, Bool.and_eq_true, decide_eq_true_eq]
        exact ⟨h'.1, ih h'.2 (by omega)⟩

/-- Writing keeps the canonical form. -/
theorem Memory.wf_write {m : Memory} (h : Memory.wf m = true) (x : Nat) (v : Byte) :
    Memory.wf (Memory.write m x v) = true :=
  Memory.wfFrom_write h (Nat.zero_le x) v

/-- Writing an index below the bound keeps every listed index below it. -/
theorem Memory.below_write {m : Memory} {n : Nat} (h : Memory.below n m = true) {x : Nat} (hx : x < n) (v : Byte) :
    Memory.below n (Memory.write m x v) = true := by
  induction m with
  | nil =>
    simp only [Memory.write]
    split <;> simp [Memory.below, hx]
  | cons cell m ih =>
    obtain ⟨a, w⟩ := cell
    simp only [Memory.below, List.all_cons, Bool.and_eq_true, decide_eq_true_eq] at h ih
    simp only [Memory.write]
    repeat' split
    all_goals simp only [Memory.below, List.all_cons, Bool.and_eq_true, decide_eq_true_eq]
    all_goals first
      | exact ⟨h.1, ih h.2⟩
      | exact ⟨hx, h.1, h.2⟩
      | exact ⟨hx, h.2⟩
      | exact ⟨h.1, h.2⟩
      | exact h.2

theorem Memory.below_mono {m : Memory} {n n' : Nat} (h : Memory.below n m = true) (hle : n ≤ n') :
    Memory.below n' m = true := by
  simp only [Memory.below, List.all_eq_true, decide_eq_true_eq] at h ⊢
  exact fun cell hc => lt_of_lt_of_le (h cell hc) hle

/-- A read after a write to the same index gives the byte written. -/
theorem Memory.read_write_same {lo : Nat} {m : Memory} (h : Memory.wfFrom lo m = true) (x : Nat) (v : Byte) :
    Memory.read (Memory.write m x v) x = v := by
  induction m generalizing lo with
  | nil =>
    simp only [Memory.write]
    split <;> simp_all [Memory.read]
  | cons cell m ih =>
    obtain ⟨a, w⟩ := cell
    have h' := h
    simp only [Memory.wfFrom, Bool.and_eq_true, decide_eq_true_eq] at h'
    simp only [Memory.write]
    split
    · split
      · next hlt hv =>
        have hne : x ≠ a := by omega
        simp only [Memory.read, if_neg hne, hv]
        exact Memory.read_eq_zero_of_wfFrom h'.2 (by omega)
      · simp [Memory.read]
    · split
      · split
        · next hx hv =>
          rw [hv]
          exact Memory.read_eq_zero_of_wfFrom h'.2 (by omega)
        · simp [Memory.read]
      · next hne =>
        simp only [Memory.read, if_neg hne]
        exact ih h'.2

/-- A write leaves every other index alone. -/
theorem Memory.read_write_other (m : Memory) {x y : Nat} (hne : y ≠ x) (v : Byte) :
    Memory.read (Memory.write m x v) y = Memory.read m y := by
  induction m with
  | nil =>
    simp only [Memory.write]
    split <;> simp [Memory.read, hne]
  | cons cell m ih =>
    obtain ⟨a, w⟩ := cell
    simp only [Memory.write]
    repeat' split
    all_goals simp_all [Memory.read]

theorem Memory.wfFrom_ofBytes (k : Nat) (bytes : List Byte) : Memory.wfFrom k (Memory.ofBytes k bytes) = true := by
  induction bytes generalizing k with
  | nil => rfl
  | cons v vs ih =>
    simp only [Memory.ofBytes]
    split
    · exact Memory.wfFrom_mono (ih (k + 1)) (by omega)
    · simp only [Memory.wfFrom, Bool.and_eq_true, decide_eq_true_eq]
      exact ⟨⟨le_refl k, by assumption⟩, ih (k + 1)⟩

/-- Bytes laid out from index 0 are in canonical form. -/
theorem Memory.wf_ofBytes (bytes : List Byte) : Memory.wf (Memory.ofBytes 0 bytes) = true :=
  Memory.wfFrom_ofBytes 0 bytes

theorem Memory.below_ofBytes (k : Nat) (bytes : List Byte) :
    Memory.below (k + bytes.length) (Memory.ofBytes k bytes) = true := by
  induction bytes generalizing k with
  | nil => rfl
  | cons v vs ih =>
    have h := ih (k + 1)
    rw [show k + 1 + vs.length = k + (v :: vs).length by simp; omega] at h
    simp only [Memory.ofBytes]
    split
    · exact h
    · simp only [Memory.below, List.all_cons, Bool.and_eq_true, decide_eq_true_eq]
      exact ⟨by simp, h⟩

/-- Bytes laid out from an index on read back in place. -/
theorem Memory.read_ofBytes (k : Nat) (bytes : List Byte) (n : Nat) :
    Memory.read (Memory.ofBytes k bytes) (k + n) = bytes.getD n 0x00 := by
  induction bytes generalizing k n with
  | nil => simp [Memory.ofBytes, Memory.read]
  | cons v vs ih =>
    cases n with
    | zero =>
      simp only [Memory.ofBytes]
      split
      · next hv => simpa [hv] using Memory.read_eq_zero_of_wfFrom (Memory.wfFrom_ofBytes (k + 1) vs) (Nat.lt_succ_self k)
      · simp [Memory.read]
    | succ n =>
      have h := ih (k + 1) n
      rw [show k + 1 + n = k + (n + 1) by omega] at h
      simp only [Memory.ofBytes]
      split
      · simpa using h
      · simpa [Memory.read] using h

end Sys2Proof.Machine
end

