-- ==== Sys2Proof/Laws/PerInstr.lean ====
section
/-! SUPPORT. The statements made per instruction, one lemma per constructor of Instr. -/

namespace Sys2Proof.Laws

/-- The line that writes the instruction is well formed and assembles to its byte (R59). -/
def Assembly.Statement (i : Instr) : Prop := i.wf = true ∧ assemble i.line = some (encode i)

theorem Assembly.of_line {i : Instr} (hm : i.mnemonic.instr i.im = i) : Assembly.Statement i := by
  have hwf : i.line.wf = true := by
    simp only [Instr.line, Line.wf, decide_eq_true_eq]
    have := i.im.isLt
    omega
  exact ⟨hwf, by simp only [assemble, hwf, if_true]; simp [Instr.line, hm]⟩

theorem Assembly.addA (im : Nibble) : Assembly.Statement (.addA im) := Assembly.of_line rfl
theorem Assembly.addB (im : Nibble) : Assembly.Statement (.addB im) := Assembly.of_line rfl
theorem Assembly.movA (im : Nibble) : Assembly.Statement (.movA im) := Assembly.of_line rfl
theorem Assembly.movB (im : Nibble) : Assembly.Statement (.movB im) := Assembly.of_line rfl
theorem Assembly.movAB (im : Nibble) : Assembly.Statement (.movAB im) := Assembly.of_line rfl
theorem Assembly.movBA (im : Nibble) : Assembly.Statement (.movBA im) := Assembly.of_line rfl
theorem Assembly.jmp (im : Nibble) : Assembly.Statement (.jmp im) := Assembly.of_line rfl
theorem Assembly.jnc (im : Nibble) : Assembly.Statement (.jnc im) := Assembly.of_line rfl
theorem Assembly.inA (im : Nibble) : Assembly.Statement (.inA im) := Assembly.of_line rfl
theorem Assembly.inB (im : Nibble) : Assembly.Statement (.inB im) := Assembly.of_line rfl
theorem Assembly.out (im : Nibble) : Assembly.Statement (.out im) := Assembly.of_line rfl
theorem Assembly.outB (im : Nibble) : Assembly.Statement (.outB im) := Assembly.of_line rfl

/-- The encoding's fields are the instruction's code and immediate, and the code is one of the twelve (R50, R53). -/
def Fields.Statement (i : Instr) : Prop :=
  opcodeField (encode i) = i.opcode ∧ imField (encode i) = i.im ∧ i.opcode ∉ [8#4, 10#4, 12#4, 13#4]

theorem Fields.of_encode (i : Instr) : Fields.Statement i :=
  ⟨opcodeField_append _ _, imField_append _ _, i.opcode_legal⟩

theorem Fields.addA (im : Nibble) : Fields.Statement (.addA im) := Fields.of_encode _
theorem Fields.addB (im : Nibble) : Fields.Statement (.addB im) := Fields.of_encode _
theorem Fields.movA (im : Nibble) : Fields.Statement (.movA im) := Fields.of_encode _
theorem Fields.movB (im : Nibble) : Fields.Statement (.movB im) := Fields.of_encode _
theorem Fields.movAB (im : Nibble) : Fields.Statement (.movAB im) := Fields.of_encode _
theorem Fields.movBA (im : Nibble) : Fields.Statement (.movBA im) := Fields.of_encode _
theorem Fields.jmp (im : Nibble) : Fields.Statement (.jmp im) := Fields.of_encode _
theorem Fields.jnc (im : Nibble) : Fields.Statement (.jnc im) := Fields.of_encode _
theorem Fields.inA (im : Nibble) : Fields.Statement (.inA im) := Fields.of_encode _
theorem Fields.inB (im : Nibble) : Fields.Statement (.inB im) := Fields.of_encode _
theorem Fields.out (im : Nibble) : Fields.Statement (.out im) := Fields.of_encode _
theorem Fields.outB (im : Nibble) : Fields.Statement (.outB im) := Fields.of_encode _

end Sys2Proof.Laws
end

