-- ==== Sys2Proof/Laws/Step.lean ====
section
/-! SUPPORT. Everything a step can do, said once. -/

namespace Sys2Proof.Machine

/-- A running core performs a cycle (R21). -/
theorem step_of_running {s : State} (hr : s.running) : step s = cycle s := by
  have hne : ¬ s.flt = 1 := by rw [hr.2]; decide
  simp only [step, clockEdge, hr.1, Bool.false_eq_true, if_false, if_neg hne]

/-- A running core whose byte decodes runs that instruction. -/
theorem step_of_decode {s : State} (hr : s.running) {i : Instr} (hd : decode s.fetch.1 = .ok i) :
    step s = .next (handled i s.fetch.2).passEdge := by
  rw [step_of_running hr]
  simp only [cycle, hd, exec_eq, endCycle]

/-- A running core whose byte does not decode takes the exception. -/
theorem step_of_illegal {s : State} (hr : s.running) {bits : Nibble}
    (hd : decode s.fetch.1 = .error (.unsupportedOpcode bits)) :
    step s = .fault (.unsupportedOpcode bits (s.fetch.2.latchFault bits).passEdge) := by
  rw [step_of_running hr]
  simp only [cycle, hd]

/-- Everything a clock edge can do (R21): reset, hold on a latched core, one instruction, or the fault of an illegal
byte of the ROM. -/
theorem step_cases (s : State) :
    (s.rstNow = true ∧ step s = .next s.resetCore.passEdge) ∨
    (s.rstNow = false ∧ s.flt = 1 ∧ step s = .fault (.stopped s.fltCode s.passEdge)) ∨
    (s.running ∧ ∃ i, decode s.fetch.1 = .ok i ∧ step s = .next (handled i s.fetch.2).passEdge) ∨
    (s.running ∧ ∃ bits, decode s.fetch.1 = .error (.unsupportedOpcode bits) ∧ bits = opcodeField (s.romRead s.pc) ∧
      bits ∈ illegalOpcodes ∧ s.pc.toNat < s.romLen.val ∧
      step s = .fault (.unsupportedOpcode bits (((s.setPc (s.pc + 1)).latchFault bits).passEdge))) := by
  have hflt : s.flt = 0 ∨ s.flt = 1 := by
    have : ∀ x : Bit, x = 0 ∨ x = 1 := by decide
    exact this s.flt
  cases hr : s.rstNow with
  | true => exact .inl ⟨rfl, by simp [step, clockEdge, hr]⟩
  | false =>
    rcases hflt with h0 | h1
    · rcases decode_cases s.fetch.1 with ⟨i, hd, _⟩ | ⟨hd, hill⟩
      · exact .inr (.inr (.inl ⟨⟨hr, h0⟩, i, hd, step_of_decode ⟨hr, h0⟩ hd⟩))
      · obtain ⟨hlt, hf⟩ := s.fetch_illegal hill
        refine .inr (.inr (.inr ⟨⟨hr, h0⟩, opcodeField s.fetch.1, hd, by rw [hf], hill, hlt, ?_⟩))
        rw [step_of_illegal ⟨hr, h0⟩ hd, hf]
    · exact .inr (.inl ⟨rfl, h1, by simp [step, clockEdge, hr, h1]⟩)

/-- A step never changes the ROM (R41). -/
theorem step_next_rom {s t : State} (h : step s = .next t) : t.romLen = s.romLen ∧ t.rom = s.rom := by
  rcases step_cases s with ⟨_, h2⟩ | ⟨_, _, h2⟩ | ⟨_, _, _, h2⟩ | ⟨_, _, _, _, _, _, h2⟩
  all_goals
    rw [h2] at h
    cases h
  all_goals simp

/-- Every fault leaves the latch set (R131, R137). -/
theorem step_fault_flt {s : State} {f : Fault} (h : step s = .fault f) : f.state.flt = 1 := by
  rcases step_cases s with ⟨_, h2⟩ | ⟨_, hflt, h2⟩ | ⟨_, _, _, h2⟩ | ⟨_, _, _, _, _, _, h2⟩
  all_goals
    rw [h2] at h
    cases h
  · exact hflt
  · rfl

/-- What `k + 1` steps are. -/
theorem run_succ (M : Host.Core) (n : Nat) (s : M.State) : M.run (n + 1) s =
    match M.step s with
    | .next t => M.run n t
    | .fault r => .fault r
    | .refused r => .refused r := rfl

/-- A run whose first step answers a next state goes on from it. -/
theorem core_run_next (n : Nat) {s t : State} (h : step s = .next t) :
    Sys2Proof.core.run (n + 1) s = Sys2Proof.core.run n t := by
  have hc : Sys2Proof.core.step s = .next t := h
  rw [run_succ Sys2Proof.core n s, hc]

/-- A run of `n + 1` steps that answers a next state took a first step that did. -/
theorem core_run_next_inv {n : Nat} {s u : State} (h : Sys2Proof.core.run (n + 1) s = .next u) :
    ∃ t, step s = .next t ∧ Sys2Proof.core.run n t = .next u := by
  have hr := run_succ Sys2Proof.core n s
  rw [h] at hr
  cases hs : step s with
  | next t => exact ⟨t, rfl, (core_run_next n hs).symm.trans h⟩
  | fault r => rw [show Sys2Proof.core.step s = .fault r from hs] at hr; cases hr
  | refused r => rw [show Sys2Proof.core.step s = .refused r from hs] at hr; cases hr

end Sys2Proof.Machine
end

