-- ==== Sys2Proof/Tests/Slice0.lean ====
section
/-! SUPPORT. Tests: the WellFormed smoke, decoding by words written out from the spec's encodings, one step of each
instruction (expected values from 95_test_vectors.md), and a witness for every statement that has hypotheses. -/

namespace Sys2Proof.Tests

open Sys2Proof.Machine

/-! ### Helpers -/

/-- A launch from a ROM of at most 256 bytes. -/
def launched (rom : List Byte) (pc : Index) (a b : Nibble) (c : Bit) (out : Nibble) : State :=
  ((State.reset.loadRom rom).getD State.reset).launch pc a b c out

/-- The base state of 95_test_vectors.md section 2.3 with a byte at index 3: `in` is 13, `ROM_LEN` is 4. -/
def base (byte : Byte) (c : Bit) : State := (launched [0, 0, 0, byte] 3 6 11 c 2).driveIn [13]

/-- `(pc, a, b, c, out)` of a next state. -/
def after : Host.Outcome State Fault Refusal → Option (Index × Nibble × Nibble × Bit × Nibble)
  | .next t => some (t.pc, t.a, t.b, t.c, t.out)
  | .fault _ => none
  | .refused _ => none

/-- `(pc, a, b, c, out, flt, flt_code)` of the state a fault leaves. -/
def faulted : Host.Outcome State Fault Refusal → Option (Index × Nibble × Nibble × Bit × Nibble × Bit × Nibble)
  | .next _ => none
  | .fault f => some (f.state.pc, f.state.a, f.state.b, f.state.c, f.state.out, f.state.flt, f.state.fltCode)
  | .refused _ => none

/-! ### WellFormed smoke: for each check an ill-formed term it refuses (R59), and a well-formed one -/

theorem test_operand_too_large_refused : (Line.insn .addA (some 16)).wf = false := by decide
theorem test_operand_missing_refused : (Line.insn .jmp none).wf = false := by decide
theorem test_byte_too_large_refused : (Line.byte 256).wf = false := by decide
theorem test_optional_operand_accepted : (Line.insn .movAB none).wf = true ∧ (Line.insn .movAB (some 15)).wf = true := by
  decide
theorem test_raw_byte_assembles : assemble (.byte 0x80) = some 0x80 := by decide
theorem test_memory_unsorted_refused : Memory.wf [(2, 0x10), (1, 0x10)] = false := by decide
theorem test_memory_repeated_refused : Memory.wf [(2, 0x10), (2, 0x20)] = false := by decide
theorem test_memory_zero_byte_refused : Memory.wf [(2, 0x00)] = false := by decide
theorem test_memory_beyond_length_refused : Memory.below 2 [(2, 0x10)] = false := by decide

/-! ### Decoding and encoding: words written out from R53 and 95_test_vectors.md section 2.1 -/

theorem test_decode_addA : decode 0b00001111 = .ok (.addA 15) := rfl
theorem test_decode_movAB : decode 0b00011111 = .ok (.movAB 15) := rfl
theorem test_decode_inA : decode 0b00100000 = .ok (.inA 0) := rfl
theorem test_decode_movA : decode 0b00111101 = .ok (.movA 13) := rfl
theorem test_decode_movBA : decode 0b01000000 = .ok (.movBA 0) := rfl
theorem test_decode_addB : decode 0b01010101 = .ok (.addB 5) := rfl
theorem test_decode_inB : decode 0b01101010 = .ok (.inB 10) := rfl
theorem test_decode_movB : decode 0b01110111 = .ok (.movB 7) := rfl
theorem test_decode_outB : decode 0b10010000 = .ok (.outB 0) := rfl
theorem test_decode_out : decode 0b10110101 = .ok (.out 5) := rfl
theorem test_decode_jnc : decode 0b11100001 = .ok (.jnc 1) := rfl
theorem test_decode_jmp : decode 0b11110100 = .ok (.jmp 4) := rfl
theorem test_decode_illegal_8 : decode 0b10001111 = .error (.unsupportedOpcode 8) := rfl
theorem test_decode_illegal_10 : decode 0b10100111 = .error (.unsupportedOpcode 10) := rfl
theorem test_decode_illegal_12 : decode 0b11000000 = .error (.unsupportedOpcode 12) := rfl
theorem test_decode_illegal_13 : decode 0b11011111 = .error (.unsupportedOpcode 13) := rfl
theorem test_encode_out : encode (.out 5) = 0xB5 := by decide
theorem test_encode_movAB : encode (.movAB 15) = 0x1F := by decide
theorem test_table_word : decodeTableWord 8 0xF4 = some (.jmp 4) ∧ decodeTableWord 8 0xDF = none := by decide

/-! ### One step of each instruction (section 2.3) -/

theorem test_addA_sticky : after (step (base 0x09 1)) = some (4, 15, 11, 1, 2) := by decide
theorem test_addA_overflow : after (step (base 0x0A 0)) = some (4, 0, 11, 1, 2) := by decide
theorem test_addB_no_carry : after (step (base 0x54 0)) = some (4, 6, 15, 0, 2) := by decide
theorem test_addB_overflow : after (step (base 0x55 0)) = some (4, 6, 0, 1, 2) := by decide
theorem test_movA : after (step (base 0x3C 1)) = some (4, 12, 11, 0, 2) := by decide
theorem test_movB : after (step (base 0x70 1)) = some (4, 6, 0, 0, 2) := by decide
theorem test_movAB_ignores_im : after (step (base 0x1F 1)) = some (4, 11, 11, 0, 2) := by decide
theorem test_movBA_ignores_im : after (step (base 0x4F 1)) = some (4, 6, 6, 0, 2) := by decide
theorem test_jmp : after (step (base 0xF9 1)) = some (9, 6, 11, 0, 2) := by decide
theorem test_jnc_not_taken : after (step (base 0xE9 1)) = some (4, 6, 11, 0, 2) := by decide
theorem test_jnc_taken : after (step (base 0xE9 0)) = some (9, 6, 11, 0, 2) := by decide
theorem test_inA_ignores_im : after (step (base 0x2F 1)) = some (4, 13, 11, 0, 2) := by decide
theorem test_inB : after (step (base 0x60 1)) = some (4, 6, 13, 0, 2) := by decide
theorem test_out : after (step (base 0xB8 1)) = some (4, 6, 11, 0, 8) := by decide
theorem test_outB_ignores_im : after (step (base 0x9F 1)) = some (4, 6, 11, 0, 11) := by decide
theorem test_illegal : faulted (step (base 0xA7 1)) = some (4, 6, 11, 1, 2, 1, 10) := by decide

/-! ### Fetch corners (section 2.2), a wide ROM (section 2.5), reset -/

theorem test_empty_rom_one_past_end : after (step (launched [] 0 5 0 0 0)) = some (1, 5, 0, 0, 0) := by decide
theorem test_empty_rom_beyond : after (step (launched [] 1 5 0 0 0)) = some (1, 5, 0, 0, 0) := by decide
theorem test_one_past_end_wraps :
    after (step { State.reset with romLen := 255, pc := 255 }) = some (0, 0, 0, 0, 0) := by decide
theorem test_last_index_wraps :
    after (step { State.reset with romLen := 256, rom := [(255, 0x3F)], pc := 255 }) = some (0, 15, 0, 0, 0) := by decide
theorem test_jump_clears_high_bits :
    after (step (launched (List.replicate 20 0 ++ 0xF3 :: List.replicate 11 0) 20 1 2 1 3)) = some (3, 1, 2, 0, 3) := by
  decide

/-- A core latched by an illegal byte, as the faulting step of section 2.7's second row leaves it. -/
def latched : State := ((launched [0x0F, 0xD3] 2 4 0 1 0).latchFault 13)

theorem test_fault_leaves_latched : faulted (step (launched [0x0F, 0xD3] 1 4 0 1 0)) = some (2, 4, 0, 1, 0, 1, 13) := by
  decide
theorem test_latched_holds : faulted (step latched) = some (2, 4, 0, 1, 0, 1, 13) := by decide
theorem test_reset_from_latched : after (step (latched.drive [⟨true, 9⟩])) = some (0, 0, 0, 0, 0) := by decide

/-! ### A witness for every statement that has hypotheses, at the ends of its ranges -/

/-- The ROM of section 2.2's first row of 16: `MovA (i mod 16)` at every index. -/
def sixteen (pc : Index) : State := launched [0x30, 0x31, 0x32, 0x33, 0x34, 0x35, 0x36, 0x37, 0x38, 0x39, 0x3A, 0x3B,
  0x3C, 0x3D, 0x3E, 0x3F] pc 0 0 0 0

theorem witness_reset_edge : (latched.drive [⟨true, 9⟩]).rstNow = true := by decide
theorem witness_decode_encode : (Instr.movAB 15).wf = true ∧ decode 0x1F = .ok (.movAB 15) := ⟨by decide, rfl⟩
theorem witness_assembled : (Line.insn .addA (some 15)).wf = true ∧ (Line.insn .inA none).wf = true ∧ 15 < 16 ∧
    Mnemonic.usesIm .out = true := by decide

theorem witness_ignored_immediate : (base 0x10 1).running ∧ (base 0x10 1).pc.toNat < (base 0x10 1).romLen.val ∧
    opcodeField ((base 0x10 1).romRead 3) ∈ [1#4, 2#4, 4#4, 6#4, 9#4] ∧
    opcodeField (((base 0x10 1).withRom [(3, 0x1F)]).romRead 3) = opcodeField ((base 0x10 1).romRead 3) :=
  ⟨⟨rfl, rfl⟩, by decide, by decide, by decide⟩

theorem witness_fetch_cases : (sixteen 15).pc.toNat < (sixteen 15).romLen.val ∧
    (sixteen 16).pc.toNat = (sixteen 16).romLen.val ∧ (sixteen 17).romLen.val < (sixteen 17).pc.toNat := by decide
theorem witness_fetch_values : (sixteen 15).fetch.1 = 0x3F ∧ (sixteen 15).fetch.2.pc = 16 ∧ (sixteen 16).fetch.1 = 0x00 ∧
    (sixteen 16).fetch.2.pc = 17 ∧ (sixteen 17).fetch.1 = 0x00 ∧ (sixteen 17).fetch.2.pc = 17 := by decide

theorem witness_running : State.reset.running := ⟨rfl, rfl⟩
theorem witness_step_decoded : (sixteen 3).running ∧ decode (sixteen 3).fetch.1 = .ok (.movA 3) := ⟨⟨rfl, rfl⟩, rfl⟩

theorem witness_net_pc : decode (base 0xF9 1).fetch.1 = .ok (.jmp 9) ∧ (base 0xF9 1).running ∧
    decode (base 0xE9 1).fetch.1 = .ok (.jnc 9) ∧ (base 0xE9 1).running ∧ (base 0xE9 1).c = 1 ∧
    (base 0xE9 0).running ∧ (base 0xE9 0).c = 0 ∧
    decode (base 0x3C 1).fetch.1 = .ok (.movA 12) ∧ ∀ im, Instr.movA 12 ≠ .jmp im ∧ Instr.movA 12 ≠ .jnc im :=
  ⟨rfl, ⟨rfl, rfl⟩, rfl, ⟨rfl, rfl⟩, rfl, ⟨rfl, rfl⟩, rfl, rfl, fun _ => ⟨nofun, nofun⟩⟩

theorem witness_writers : (base 0x3C 1).rstNow = false ∧ ∃ t, step (base 0x3C 1) = .next t := ⟨rfl, _, rfl⟩
theorem witness_writers_add : (base 0x09 1).rstNow = false ∧ (base 0x09 1).c = 1 ∧ ∃ t, step (base 0x09 1) = .next t :=
  ⟨rfl, rfl, _, rfl⟩
theorem witness_run : ∃ t, Sys2Proof.core.run 1 (sixteen 3) = .next t := ⟨_, rfl⟩

theorem witness_add_run : ∀ i ∈ [Instr.addA 1, .addB 1], i.isAdd = true := by decide
theorem witness_add_overflows : addOverflows (.addA 1) (launched [] 0 15 0 0 0) := .inl ⟨1, rfl, by decide⟩
theorem witness_subtract : (base 0x00 0).c = 0 ∧ 1 ≤ 1 ∧ 1 ≤ 15 ∧ 15 ≤ 15 := by decide

/-- `MovA 0` with the carry set, then `Jnc 5`. -/
def moveThenJnc : State := launched [0x30, 0xE5] 0 0 0 1 0

theorem witness_jnc_after_move : moveThenJnc.running ∧ decode moveThenJnc.fetch.1 = .ok (.movA 0) ∧
    ∃ t, step moveThenJnc = .next t ∧ t.rstNow = false ∧ decode t.fetch.1 = .ok (.jnc 5) :=
  ⟨⟨rfl, rfl⟩, rfl, _, rfl, rfl, rfl⟩

/-- `Jmp 5` in a ROM of one byte. -/
def jumpOut : State := launched [0xF5] 0 1 2 0 3

theorem witness_jump_beyond : jumpOut.running ∧ decode jumpOut.fetch.1 = .ok (.jmp 5) ∧
    jumpOut.romLen.val < (5 : Nibble).toNat := ⟨⟨rfl, rfl⟩, rfl, by decide⟩

theorem witness_no_reset : ((sixteen 17).driveIn [3, 4]).noReset ∧ ((sixteen 17).driveIn [3, 4]).flt = 0 ∧
    ((sixteen 17).driveIn [3, 4]).romLen.val < ((sixteen 17).driveIn [3, 4]).pc.toNat := by
  refine ⟨?_, rfl, by decide⟩
  unfold State.noReset
  decide

/-- One past the end of a ROM of 254 bytes, the carry set. -/
def atEnd : State := { State.reset with romLen := 254, pc := 254, c := 1 }

theorem witness_fall_through : atEnd.flt = 0 ∧ atEnd.noReset ∧ atEnd.romLen.val ≤ 254 ∧
    atEnd.pc.toNat = atEnd.romLen.val := ⟨rfl, nofun, by decide, by decide⟩
theorem witness_fall_through_empty : (launched [] 0 0 0 1 0).romLen.val ≤ 254 ∧
    (launched [] 0 0 0 1 0).pc.toNat = (launched [] 0 0 0 1 0).romLen.val := by decide

/-- `Jmp 0` at index 0 with the carry clear. -/
def spin : State := launched [0xF0] 0 1 2 0 3

theorem witness_fixed_point_jmp : spin.fixedPoint ∧ spin.noReset := by
  refine ⟨⟨rfl, fun v => ?_⟩, nofun⟩
  have hs : step (spin.drivenNow ⟨false, v⟩) = .next (handled (.jmp 0) (spin.drivenNow ⟨false, v⟩).fetch.2).passEdge :=
    step_of_decode ⟨rfl, rfl⟩ (by revert v; decide)
  exact ⟨_, hs, rfl, rfl, rfl, rfl, rfl, rfl, rfl⟩
theorem witness_ended : EndOfRun.atFixedPoint.ended 7 spin := ⟨rfl, witness_fixed_point_jmp.1⟩
theorem witness_ended_after_cycles : (EndOfRun.afterCycles 0).ended 0 spin := ⟨rfl, rfl⟩
theorem witness_ended_out_reaches : (EndOfRun.outReaches 3).ended 1 spin := ⟨rfl, rfl⟩

/-- The latched core's `out` is 0 and it stands after two edges, yet it has not ended (R137, R170). -/
theorem test_latched_not_ended : ¬ (EndOfRun.outReaches 0).ended 2 latched ∧ ¬ (EndOfRun.afterCycles 2).ended 2 latched :=
  ⟨fun h => absurd h.1 (by decide), fun h => absurd h.1 (by decide)⟩
theorem witness_fault_not_ended : latched.flt = 1 ∧ (∃ f, step latched = .fault f) ∧
    ∃ f, step (base 0x80 1) = .fault f := ⟨rfl, ⟨_, rfl⟩, _, rfl⟩

theorem witness_pc_in_reach : (sixteen 17).pcInReach ∧ ∃ t, step (sixteen 17) = .next t :=
  ⟨by unfold State.pcInReach; decide, _, rfl⟩

theorem witness_input : (base 0x20 1).flt = 0 ∧ decode (base 0x20 1).fetch.1 = .ok (.inA 0) ∧ (base 0x60 1).flt = 0 ∧
    decode (base 0x60 1).fetch.1 = .ok (.inB 0) := ⟨rfl, rfl, rfl, rfl⟩
theorem witness_input_unseen : (base 0x3C 1).flt = 0 ∧ decode (base 0x3C 1).fetch.1 = .ok (.movA 12) ∧
    Instr.readsPort (.movA 12) = false := ⟨rfl, rfl, rfl⟩
theorem witness_each_edge : (∃ t, step (base 0x20 1) = .next t) ∧ (base 0x20 1).host = ⟨false, 13⟩ :: [] ∧
    State.reset.host = [] := ⟨⟨_, rfl⟩, rfl, rfl⟩

theorem witness_illegal : (base 0xDF 1).running ∧ decode (base 0xDF 1).fetch.1 = .error (.unsupportedOpcode 13) :=
  ⟨⟨rfl, rfl⟩, rfl⟩
theorem witness_fault_iff : (base 0x80 0).running ∧ (base 0x80 0).pc.toNat < (base 0x80 0).romLen.val ∧
    opcodeField ((base 0x80 0).romRead 3) ∈ illegalOpcodes := ⟨⟨rfl, rfl⟩, by decide, by decide⟩
theorem witness_latched : latched.flt = 1 ∧ latched.rstNow = false := by decide

theorem witness_invariant_next : (base 0x3C 1).Inv ∧ ∃ t, step (base 0x3C 1) = .next t :=
  ⟨⟨.inl ⟨rfl, rfl⟩, by decide, by decide⟩, _, rfl⟩
theorem witness_invariant_fault : (base 0x80 1).Inv ∧ ∃ f, step (base 0x80 1) = .fault f :=
  ⟨⟨.inl ⟨rfl, rfl⟩, by decide, by decide⟩, _, rfl⟩

theorem witness_legal_rom : spin.romLegal ∧ spin.flt = 0 := by
  refine ⟨fun x hx => ?_, rfl⟩
  have hx0 : x = 0 := by
    apply BitVec.eq_of_toNat_eq
    have h1 : x.toNat < 1 := hx
    show x.toNat = 0
    omega
  subst hx0
  decide

theorem witness_load : ([] : List Byte).length ≤ 256 ∧ (List.replicate 256 (0x31 : Byte)).length ≤ 256 ∧
    256 < (List.replicate 257 (0x31 : Byte)).length :=
  ⟨by decide, by rw [List.length_replicate], by rw [List.length_replicate]; decide⟩
theorem witness_placed : State.reset.romInv ∧ (sixteen 17).romInv := ⟨by unfold State.romInv; decide, by unfold State.romInv; decide⟩

end Sys2Proof.Tests
end

section
/-! SUPPORT. Decoding a byte, read off its value: the fields as the spec writes them (R51), the selection by the high
nibble alone, and the count of the bytes that decode (R58). -/

namespace Sys2Proof.Machine

/-- The opcode field is `byte >> 4` (R51). -/
theorem opcodeField_toNat_shift (byte : Byte) : (opcodeField byte).toNat = byte.toNat >>> 4 := by
  rw [opcodeField_toNat, Nat.shiftRight_eq_div_pow]

/-- The immediate field is `byte & 0x0F` (R51, R52). -/
theorem imField_toNat_mask (byte : Byte) : (imField byte).toNat = byte.toNat &&& 0x0F := by
  rw [imField_toNat]
  exact (Nat.and_two_pow_sub_one_eq_mod byte.toNat 4).symm

/-- A nibble is one of the four illegal opcodes exactly when its value is one of theirs (R54). -/
theorem toNat_mem_illegal_iff (op : Nibble) : op.toNat ∈ [8, 10, 12, 13] ↔ op ∈ [8#4, 10#4, 12#4, 13#4] := by
  revert op
  decide

/-- The first clause of R58 for one byte: the instruction with the byte's fields, or the refusal. -/
theorem decode_fields_or_illegal (byte : Byte) :
    (byte.toNat >>> 4 ∉ [8, 10, 12, 13] ∧ ∃ i, decode byte = .ok i ∧
      i.opcode.toNat = byte.toNat >>> 4 ∧ i.im.toNat = byte.toNat &&& 0x0F) ∨
    (byte.toNat >>> 4 ∈ [8, 10, 12, 13] ∧
      decode byte = .error (.unsupportedOpcode (BitVec.ofNat 4 (byte.toNat >>> 4)))) := by
  rw [← opcodeField_toNat_shift, ← imField_toNat_mask, toNat_mem_illegal_iff, BitVec.ofNat_toNat, BitVec.setWidth_eq]
  rcases decode_cases byte with ⟨i, hd, hop, him⟩ | ⟨hd, hill⟩
  · exact .inl ⟨hop ▸ i.opcode_legal, i, hd, by rw [hop], by rw [him]⟩
  · exact .inr ⟨hill, hd⟩

/-- A byte decodes to an instruction exactly when its high nibble is legal. -/
theorem decode_isSome_iff (byte : Byte) :
    (decode byte).toOption.isSome = true ↔ byte.toNat >>> 4 ∉ [8, 10, 12, 13] := by
  rcases decode_fields_or_illegal byte with ⟨hlegal, i, hd, -, -⟩ | ⟨hill, hd⟩
  · rw [hd]
    exact iff_of_true rfl hlegal
  · rw [hd]
    exact iff_of_false Bool.false_ne_true (not_not_intro hill)

/-- Within the block of 16 numbers that starts at `16 * k`, a test of the high nibble answers as it does for `k`. -/
theorem countP_block_shift (p : Nat → Bool) (k : Nat) :
    (List.range 16).countP ((fun n => p (n >>> 4)) ∘ (16 * k + ·)) = if p k then 16 else 0 := by
  have hhigh : ∀ n ∈ List.range 16, (16 * k + n) >>> 4 = k := by
    intro n hn
    rw [List.mem_range] at hn
    rw [Nat.shiftRight_eq_div_pow]
    omega
  rw [List.countP_congr (q := fun _ => p k) fun n hn => by rw [Function.comp_apply, hhigh n hn]]
  cases p k <;> rfl

/-- A test of the high nibble alone takes whole blocks of 16 numbers. -/
theorem countP_range_shift (p : Nat → Bool) (k : Nat) :
    (List.range (16 * k)).countP (fun n => p (n >>> 4)) = 16 * (List.range k).countP p := by
  induction k with
  | zero => rfl
  | succ k ih =>
    rw [Nat.mul_succ, List.range_add, List.countP_append, ih, List.countP_map, countP_block_shift, List.range_succ,
      List.countP_append, List.countP_singleton]
    split <;> omega

/-- 192 of the 256 bytes are instructions: 16 for each of the 12 legal high nibbles. -/
theorem count_decoding_bytes :
    ((List.range 256).filter fun n => (decode (BitVec.ofNat 8 n)).toOption.isSome).length = 192 := by
  have hsel : ∀ n ∈ List.range 256, (decode (BitVec.ofNat 8 n)).toOption.isSome = true ↔
      decide (n >>> 4 ∉ [8, 10, 12, 13]) = true := by
    intro n hn
    have hval : (BitVec.ofNat 8 n).toNat = n := Nat.mod_eq_of_lt (List.mem_range.mp hn)
    rw [decode_isSome_iff, hval, decide_eq_true_iff]
  have hlegal : (List.range 16).countP (fun op => decide (op ∉ [8, 10, 12, 13])) = 12 := by decide
  rw [← List.countP_eq_length_filter, List.countP_congr hsel]
  have hblocks := countP_range_shift (fun op => decide (op ∉ [8, 10, 12, 13])) 16
  rwa [hlegal] at hblocks

/-- The other 64 bytes fault. -/
theorem count_refused_bytes :
    ((List.range 256).filter fun n => (decode (BitVec.ofNat 8 n)).toOption.isNone).length = 64 := by
  have hsplit := List.length_eq_length_filter_add (l := List.range 256)
    fun n => (decode (BitVec.ofNat 8 n)).toOption.isSome
  rw [count_decoding_bytes, List.length_range] at hsplit
  simp only [Option.not_isSome] at hsplit
  omega

/-- Settles O16: the fields and the refusal byte by byte, then the two counts. -/
theorem decodeTotalOnBytes : Obligations.DecodeTotalOnBytes :=
  ⟨decode_fields_or_illegal, count_decoding_bytes, count_refused_bytes⟩

end Sys2Proof.Machine
end

section
/-! SUPPORT. The outcome of a cycle: a running core either completes the instruction it decodes, its latch still clear,
or takes the one exception (R75). -/

namespace Sys2Proof.Machine

/-- A cycle that runs an instruction leaves the fault latch as it was. -/
theorem handled_fetch_flt (i : Instr) (s : State) : (handled i s.fetch.2).passEdge.flt = s.flt := by
  rw [State.passEdge_flt, handled_flt, State.fetch_flt]

/-- Settles O23: the two answers of decode are the two outcomes of the cycle. -/
theorem cycleAlwaysCompletes : Obligations.CycleAlwaysCompletes := by
  intro s hr
  rcases decode_cases s.fetch.1 with ⟨i, hd, -, -⟩ | ⟨hd, -⟩
  · exact .inl ⟨_, step_of_decode hr hd, (handled_fetch_flt i s).trans hr.2⟩
  · exact .inr ⟨_, _, step_of_illegal hr hd⟩

end Sys2Proof.Machine
end

section
/-! SUPPORT. The two Adds (41_arithmetic.md): the value of an encoding, the frame every handler keeps, and the sum and
the sticky carry an Add leaves. -/

namespace Sys2Proof.Machine

/-- An instruction's byte is `opcode * 16 + im` (R50). -/
theorem encode_toNat (i : Instr) : (encode i).toNat = i.opcode.toNat * 16 + i.im.toNat := append_toNat i.opcode i.im

/-- No handler writes the fault latch (R22), the ROM (R41) or the host's coming levels (R36). -/
theorem handled_sameOutside (i : Instr) (s : State) : s.sameOutside (handled i s) :=
  have hrom : s.sameRom (handled i s) :=
    ⟨handled_romLen i s, State.romRead_congr s _ (handled_romLen i s) (handled_rom i s)⟩
  ⟨handled_flt i s, handled_fltCode i s, hrom, handled_host i s, handled_edges i s⟩

/-- R90: the result is the exact sum modulo 16; the carry-in is not added. -/
theorem handled_addA_a_toNat (im : Nibble) (s : State) :
    (handled (.addA im) s).a.toNat = (s.a.toNat + im.toNat) % 16 := sumResult_toNat (exactSum s.a im)

/-- R90: an overflow sets the carry, and no sum clears it. -/
theorem handled_addA_c (im : Nibble) (s : State) :
    (handled (.addA im) s).c = if 15 < s.a.toNat + im.toNat then 1 else s.c := rfl

/-- R91: the result is the exact sum modulo 16; the carry-in is not added. -/
theorem handled_addB_b_toNat (im : Nibble) (s : State) :
    (handled (.addB im) s).b.toNat = (s.b.toNat + im.toNat) % 16 := sumResult_toNat (exactSum s.b im)

/-- R91: an overflow sets the carry, and no sum clears it. -/
theorem handled_addB_c (im : Nibble) (s : State) :
    (handled (.addB im) s).c = if 15 < s.b.toNat + im.toNat then 1 else s.c := rfl

/-- Settles O3: the handler answers `handled (.addA im) s`, whose fields the lemmas above give. -/
theorem addAResult : Obligations.AddAResult := fun im s =>
  ⟨encode_toNat (.addA im), handled (.addA im) s, exec_eq (.addA im) s, handled_addA_a_toNat im s, handled_addA_c im s,
    rfl, rfl, rfl, handled_sameOutside (.addA im) s⟩

/-- Settles O4: as O3, with `b` for `a`. -/
theorem addBResult : Obligations.AddBResult := fun im s =>
  ⟨encode_toNat (.addB im), handled (.addB im) s, exec_eq (.addB im) s, handled_addB_b_toNat im s, handled_addB_c im s,
    rfl, rfl, rfl, handled_sameOutside (.addB im) s⟩

end Sys2Proof.Machine
end

section
/-! SUPPORT. The four moves (42_move.md): the access matrix (R22) read row by row, and the value each move leaves in its
destination. -/

namespace Sys2Proof.Machine

/-- Every instruction other than an Add clears the carry (R14). -/
theorem handled_c_of_not_isAdd {i : Instr} (h : i.isAdd = false) (s : State) : (handled i s).c = 0 := by
  cases i
  case addA => cases h
  case addB => cases h
  all_goals rfl

/-- An instruction outside `a`'s column of the access matrix leaves `a` (R11, R22). -/
theorem handled_a_of_not_writesA {i : Instr} (h : i.writesA = false) (s : State) : (handled i s).a = s.a := by
  cases i
  case addA => cases h
  case movA => cases h
  case movAB => cases h
  case inA => cases h
  all_goals rfl

/-- An instruction outside `b`'s column of the access matrix leaves `b` (R12, R22). -/
theorem handled_b_of_not_writesB {i : Instr} (h : i.writesB = false) (s : State) : (handled i s).b = s.b := by
  cases i
  case addB => cases h
  case movB => cases h
  case movBA => cases h
  case inB => cases h
  all_goals rfl

/-- An instruction outside `out`'s column of the access matrix leaves `out` (R15, R22). -/
theorem handled_out_of_not_writesOut {i : Instr} (h : i.writesOut = false) (s : State) :
    (handled i s).out = s.out := by
  cases i
  case out => cases h
  case outB => cases h
  all_goals rfl

/-- R100: the immediate as it stands. -/
theorem handled_movA_a (im : Nibble) (s : State) : (handled (.movA im) s).a = im := rfl

/-- R101: the immediate as it stands. -/
theorem handled_movB_b (im : Nibble) (s : State) : (handled (.movB im) s).b = im := rfl

/-- R102: the old `b`, whatever the low nibble (R55). -/
theorem handled_movAB_a (im : Nibble) (s : State) : (handled (.movAB im) s).a = s.b := rfl

/-- R103: the old `a`, whatever the low nibble (R55). -/
theorem handled_movBA_b (im : Nibble) (s : State) : (handled (.movBA im) s).b = s.a := rfl

/-- Settles O5: the handler answers `handled (.movA im) s`, whose destination is the immediate and whose other fields
the access matrix gives. -/
theorem movAResult : Obligations.MovAResult := fun im s =>
  ⟨encode_toNat (.movA im), handled (.movA im) s, exec_eq (.movA im) s, handled_movA_a im s,
    handled_c_of_not_isAdd rfl s, handled_b_of_not_writesB rfl s, handled_out_of_not_writesOut rfl s, rfl,
    handled_sameOutside (.movA im) s⟩

/-- Settles O6: as O5, with `b` for `a`. -/
theorem movBResult : Obligations.MovBResult := fun im s =>
  ⟨encode_toNat (.movB im), handled (.movB im) s, exec_eq (.movB im) s, handled_movB_b im s,
    handled_c_of_not_isAdd rfl s, handled_a_of_not_writesA rfl s, handled_out_of_not_writesOut rfl s, rfl,
    handled_sameOutside (.movB im) s⟩

/-- Settles O7: as O5, the source being `b`, which the move itself leaves. -/
theorem movABResult : Obligations.MovABResult := fun im s =>
  ⟨encode_toNat (.movAB im), handled (.movAB im) s, exec_eq (.movAB im) s, handled_movAB_a im s,
    handled_c_of_not_isAdd rfl s, handled_b_of_not_writesB rfl s, handled_out_of_not_writesOut rfl s, rfl,
    handled_sameOutside (.movAB im) s⟩

/-- Settles O8: as O6, the source being `a`, which the move itself leaves. -/
theorem movBAResult : Obligations.MovBAResult := fun im s =>
  ⟨encode_toNat (.movBA im), handled (.movBA im) s, exec_eq (.movBA im) s, handled_movBA_b im s,
    handled_c_of_not_isAdd rfl s, handled_a_of_not_writesA rfl s, handled_out_of_not_writesOut rfl s, rfl,
    handled_sameOutside (.movBA im) s⟩

end Sys2Proof.Machine
end

section
/-! SUPPORT. The two jumps (43_jump.md): the `pc` each leaves. -/

namespace Sys2Proof.Machine

/-- R110: the target is the immediate, its high bits 0. -/
theorem handled_jmp_pc_toNat (im : Nibble) (s : State) : (handled (.jmp im) s).pc.toNat = im.toNat :=
  jumpTarget_toNat im

/-- R111: the jump is taken exactly when the old carry is 0; not taken, it leaves `pc` as fetch did. -/
theorem handled_jnc_pc_toNat (im : Nibble) (s : State) :
    (handled (.jnc im) s).pc.toNat = if s.c = 0 then im.toNat else s.pc.toNat := by
  by_cases hc : s.c = 0
  · simp only [handled, if_pos hc, jumpTarget_toNat]
  · simp only [handled, if_neg hc]

/-- Settles O9: the handler answers `handled (.jmp im) s`, whose `pc` is the immediate and whose other fields the access
matrix gives. -/
theorem jmpResult : Obligations.JmpResult := fun im s =>
  ⟨encode_toNat (.jmp im), handled (.jmp im) s, exec_eq (.jmp im) s, handled_jmp_pc_toNat im s,
    handled_c_of_not_isAdd rfl s, handled_a_of_not_writesA rfl s, handled_b_of_not_writesB rfl s,
    handled_out_of_not_writesOut rfl s, handled_sameOutside (.jmp im) s⟩

/-- Settles O10: as O9, with the old carry deciding the `pc`; the carry is cleared whether or not the jump is taken. -/
theorem jncResult : Obligations.JncResult := fun im s =>
  ⟨encode_toNat (.jnc im), handled (.jnc im) s, exec_eq (.jnc im) s, handled_jnc_pc_toNat im s,
    handled_c_of_not_isAdd rfl s, handled_a_of_not_writesA rfl s, handled_b_of_not_writesB rfl s,
    handled_out_of_not_writesOut rfl s, handled_sameOutside (.jnc im) s⟩

end Sys2Proof.Machine
end

section
/-! SUPPORT. The port instructions (44_io.md): the value each leaves in its destination, and the `pc`, which only
the jumps write. -/

namespace Sys2Proof.Machine

/-- An instruction other than the two jumps leaves `pc` as fetch did (R13, R76). -/
theorem handled_pc_of_not_jump (i : Instr) (h : ∀ im, i ≠ .jmp im ∧ i ≠ .jnc im) (s : State) :
    (handled i s).pc = s.pc := by
  rcases handled_pc i s with hpc | ⟨im, hjmp | ⟨hjnc, -⟩, -⟩
  · exact hpc
  · exact absurd hjmp (h im).1
  · exact absurd hjnc (h im).2

/-- R120: the input of this cycle, whatever the low nibble (R55). -/
theorem handled_inA_a (im : Nibble) (s : State) : (handled (.inA im) s).a = s.inNow := rfl

/-- R121: the input of this cycle, whatever the low nibble (R55). -/
theorem handled_inB_b (im : Nibble) (s : State) : (handled (.inB im) s).b = s.inNow := rfl

/-- R122: the immediate as it stands. -/
theorem handled_out_out (im : Nibble) (s : State) : (handled (.out im) s).out = im := rfl

/-- R123: the old `b`, whatever the low nibble (R55). -/
theorem handled_outB_out (im : Nibble) (s : State) : (handled (.outB im) s).out = s.b := rfl

/-- Settles O11: the handler answers `handled (.inA im) s`, whose destination is the input of this cycle and whose other
fields the access matrix gives. -/
theorem inAResult : Obligations.InAResult := fun im s =>
  ⟨encode_toNat (.inA im), handled (.inA im) s, exec_eq (.inA im) s, handled_inA_a im s,
    handled_c_of_not_isAdd rfl s, handled_b_of_not_writesB rfl s, handled_out_of_not_writesOut rfl s,
    handled_pc_of_not_jump (.inA im) (fun _ => ⟨nofun, nofun⟩) s, handled_sameOutside (.inA im) s⟩

/-- Settles O12: as O11, with `b` for `a`. -/
theorem inBResult : Obligations.InBResult := fun im s =>
  ⟨encode_toNat (.inB im), handled (.inB im) s, exec_eq (.inB im) s, handled_inB_b im s,
    handled_c_of_not_isAdd rfl s, handled_a_of_not_writesA rfl s, handled_out_of_not_writesOut rfl s,
    handled_pc_of_not_jump (.inB im) (fun _ => ⟨nofun, nofun⟩) s, handled_sameOutside (.inB im) s⟩

/-- Settles O13: the output latch takes the immediate; neither accumulator is written. -/
theorem outResult : Obligations.OutResult := fun im s =>
  ⟨encode_toNat (.out im), handled (.out im) s, exec_eq (.out im) s, handled_out_out im s,
    handled_c_of_not_isAdd rfl s, handled_a_of_not_writesA rfl s, handled_b_of_not_writesB rfl s,
    handled_pc_of_not_jump (.out im) (fun _ => ⟨nofun, nofun⟩) s, handled_sameOutside (.out im) s⟩

/-- Settles O14: as O13, the source being `b`, which the instruction itself leaves. -/
theorem outBResult : Obligations.OutBResult := fun im s =>
  ⟨encode_toNat (.outB im), handled (.outB im) s, exec_eq (.outB im) s, handled_outB_out im s,
    handled_c_of_not_isAdd rfl s, handled_a_of_not_writesA rfl s, handled_b_of_not_writesB rfl s,
    handled_pc_of_not_jump (.outB im) (fun _ => ⟨nofun, nofun⟩) s, handled_sameOutside (.outB im) s⟩

end Sys2Proof.Machine
end

section
/-! SUPPORT. Encoding (30_encoding.md): decode undoes encode, the printed opcode map selects as the switch does, and a
line of the assembler is its byte. -/

namespace Sys2Proof.Machine

/-- An instruction's byte selects its own arm of R53's switch. -/
@[simp] theorem decode_encode (i : Instr) : decode (encode i) = .ok i := by
  cases i <;> simp [decode, encode, Instr.opcode, Instr.im]

/-- A byte encodes an instruction exactly when its two fields are the instruction's (R50, R51). -/
theorem encode_eq_iff (i : Instr) (byte : Byte) :
    encode i = byte ↔ i.opcode = opcodeField byte ∧ i.im = imField byte := by
  constructor
  · rintro rfl
    exact ⟨(opcodeField_append _ _).symm, (imField_append _ _).symm⟩
  · rintro ⟨hop, him⟩
    rw [encode, hop, him, append_fields]

theorem decode_ok_iff (byte : Byte) (i : Instr) : decode byte = .ok i ↔ encode i = byte := by
  constructor
  · intro h
    rcases decode_cases byte with ⟨j, hj, hfields⟩ | ⟨herr, -⟩
    · obtain rfl : j = i := Except.ok.inj (hj.symm.trans h)
      exact (encode_eq_iff j byte).mpr hfields
    · rw [herr] at h
      cases h
  · rintro rfl
    exact decode_encode i

/-- Decode refuses exactly the bytes with an illegal high nibble, and names that nibble (R54, R73). -/
theorem decode_error_iff (byte : Byte) (bits : Nibble) :
    decode byte = .error (.unsupportedOpcode bits) ↔ bits = opcodeField byte ∧ bits ∈ illegalOpcodes := by
  rcases decode_cases byte with ⟨i, hd, hop, -⟩ | ⟨hd, hill⟩
  · rw [hd]
    refine iff_of_false nofun ?_
    rintro ⟨rfl, hill⟩
    exact i.opcode_legal (hop ▸ hill)
  · rw [hd]
    constructor
    · rintro ⟨⟩
      exact ⟨rfl, hill⟩
    · rintro ⟨rfl, -⟩
      rfl

/-- Settles O18: both directions of `decode_ok_iff`. -/
theorem decodeEncodeInverse : Obligations.DecodeEncodeInverse :=
  ⟨fun i _ => decode_encode i, fun byte i => (decode_ok_iff byte i).mp⟩

/-- Settles O15: each byte is evaluated. -/
theorem sampleBytesDecode : Obligations.SampleBytesDecode :=
  ⟨rfl, rfl, rfl, rfl, rfl, rfl, rfl, rfl, rfl⟩

theorem im_instr (m : Mnemonic) (im : Nibble) : (m.instr im).im = im := by cases m <;> rfl

/-- The immediate takes no part in the code (R53). -/
theorem opcode_instr (m : Mnemonic) (im : Nibble) : (m.instr im).opcode = (m.instr 0).opcode := by
  cases m <;> rfl

theorem instr_mnemonic (i : Instr) : i.mnemonic.instr i.im = i := by cases i <;> rfl

/-- The mask of R53's table keeps the high nibble and clears the low one. -/
theorem and_highMask (byte : Byte) : byte &&& 0xF0 = opcodeField byte ++ 0#4 := by
  calc byte &&& 0xF0 = (opcodeField byte ++ imField byte) &&& (15#4 ++ 0#4) := by rw [append_fields]; rfl
    _ = (opcodeField byte &&& 15#4) ++ (imField byte &&& 0#4) := BitVec.and_append
    _ = opcodeField byte ++ 0#4 := congrArg₂ (· ++ ·) BitVec.and_allOnes BitVec.and_zero

/-- A row of the map takes exactly the bytes whose high nibble is its instruction's code. -/
theorem mapRow_matches_iff {r : MapRow} (hr : r ∈ opcodeMap) (byte : Byte) :
    byte &&& r.mask = r.matchBits ↔ (r.mnemonic.instr 0).opcode = opcodeField byte := by
  have hrow : ∀ r ∈ opcodeMap, r.mask = 0xF0 ∧ r.matchBits = (r.mnemonic.instr 0).opcode ++ 0#4 := by decide
  obtain ⟨hmask, hbits⟩ := hrow r hr
  rw [hmask, hbits, and_highMask]
  constructor
  · intro h
    simpa using (congrArg opcodeField h).symm
  · intro h
    rw [h]

/-- Every instruction has a row (R53). -/
theorem exists_mapRow (m : Mnemonic) : ∃ r ∈ opcodeMap, r.mnemonic = m := by
  cases m <;> decide

/-- A byte decodes to an instruction exactly when that instruction's row takes it. -/
theorem decode_ok_iff_mapRow (byte : Byte) (i : Instr) : decode byte = .ok i ↔
    ∃ r ∈ opcodeMap, byte &&& r.mask = r.matchBits ∧ i = r.mnemonic.instr (imField byte) := by
  rw [decode_ok_iff, encode_eq_iff]
  constructor
  · rintro ⟨hop, him⟩
    obtain ⟨r, hr, hm⟩ := exists_mapRow i.mnemonic
    have hi : i = r.mnemonic.instr (imField byte) := by rw [hm, ← him, instr_mnemonic]
    exact ⟨r, hr, (mapRow_matches_iff hr byte).mpr (by rw [← opcode_instr, ← hi, hop]), hi⟩
  · rintro ⟨r, hr, hbits, rfl⟩
    exact ⟨(opcode_instr _ _).trans ((mapRow_matches_iff hr byte).mp hbits), im_instr _ _⟩

/-- No byte satisfies two rows: the twelve codes differ (R53). -/
theorem opcodeMap_disjoint : opcodeMap.Pairwise fun r q =>
    ∀ byte : Byte, ¬ (byte &&& r.mask = r.matchBits ∧ byte &&& q.mask = q.matchBits) := by
  have hcodes : opcodeMap.Pairwise fun r q => (r.mnemonic.instr 0).opcode ≠ (q.mnemonic.instr 0).opcode := by decide
  refine hcodes.imp_of_mem ?_
  rintro r q hr hq hne byte ⟨hbr, hbq⟩
  exact hne (((mapRow_matches_iff hr byte).mp hbr).trans ((mapRow_matches_iff hq byte).mp hbq).symm)

/-- Settles O17: the table selects as the switch does, and its rows are disjoint. -/
theorem decodeFollowsOpcodeMap : Obligations.DecodeFollowsOpcodeMap := ⟨decode_ok_iff_mapRow, opcodeMap_disjoint⟩

theorem assemble_of_wf {m : Mnemonic} {operand : Option Nat} (h : (Line.insn m operand).wf = true) :
    assemble (.insn m operand) = some (encode (m.instr (BitVec.ofNat 4 (operand.getD 0)))) := if_pos h

theorem assemble_of_not_wf {l : Line} (h : l.wf = false) : assemble l = none :=
  if_neg (by rw [h]; exact Bool.false_ne_true)

/-- A well-formed line's operand fits the immediate field (R52, R59). -/
theorem operand_le_of_wf {m : Mnemonic} {operand : Option Nat} (h : (Line.insn m operand).wf = true) :
    operand.getD 0 ≤ 15 := by
  cases operand with
  | none => exact Nat.zero_le 15
  | some n => exact of_decide_eq_true h

/-- Settles O19: a well-formed line is the encoding of its mnemonic with its operand, and the two ill-formed ones fail
the check that assembling makes. -/
theorem assembledLineDecodes : Obligations.AssembledLineDecodes := by
  refine ⟨fun m operand hwf => ?_, fun m n hn => ?_, fun m hm => ?_⟩
  · have him : (BitVec.ofNat 4 (operand.getD 0)).toNat = operand.getD 0 :=
      Nat.mod_eq_of_lt (Nat.lt_succ_of_le (operand_le_of_wf hwf))
    refine ⟨_, _, assemble_of_wf hwf, decode_encode _, him, ?_⟩
    rw [encode_toNat, im_instr, him]
  · exact assemble_of_not_wf (decide_eq_false (by omega))
  · exact assemble_of_not_wf (by rw [Line.wf, hm]; rfl)

end Sys2Proof.Machine
end

section
/-! SUPPORT. The rules later proofs go through: what two states share, fetch in and past the ROM, the host's levels at an
edge, and what a step that answered can have done. -/

namespace Sys2Proof.Machine

theorem State.sameCore.trans {s t u : State} (h : s.sameCore t) (h' : t.sameCore u) : s.sameCore u := by
  obtain ⟨hpc, ha, hb, hc, hout, hflt, hcode⟩ := h
  obtain ⟨hpc', ha', hb', hc', hout', hflt', hcode'⟩ := h'
  exact ⟨hpc'.trans hpc, ha'.trans ha, hb'.trans hb, hc'.trans hc, hout'.trans hout, hflt'.trans hflt,
    hcode'.trans hcode⟩

theorem State.sameCore_refl (s : State) : s.sameCore s := ⟨rfl, rfl, rfl, rfl, rfl, rfl, rfl⟩

theorem State.sameCore_passEdge (s : State) : s.sameCore s.passEdge := s.sameCore_refl

theorem State.sameRom_of_eq {s t : State} (hlen : t.romLen = s.romLen) (hrom : t.rom = s.rom) : s.sameRom t :=
  ⟨hlen, State.romRead_congr s t hlen hrom⟩

theorem State.sameRom_refl (s : State) : s.sameRom s := State.sameRom_of_eq rfl rfl

theorem State.sameRom.trans {s t u : State} (h : s.sameRom t) (h' : t.sameRom u) : s.sameRom u :=
  ⟨h'.1.trans h.1, fun x => (h'.2 x).trans (h.2 x)⟩

theorem State.romRead_of_lt {s : State} {x : Index} (h : x.toNat < s.romLen.val) :
    s.romRead x = Memory.read s.rom x.toNat := if_pos h

/-- The reader answers 0x00 at and beyond `ROM_LEN` (R32, decision D3). -/
theorem State.romRead_of_ge {s : State} {x : Index} (h : s.romLen.val ≤ x.toNat) : s.romRead x = 0x00 :=
  if_neg (Nat.not_lt.mpr h)

/-- Up to and at `ROM_LEN` fetch reads the ROM and advances `pc` (R71). -/
theorem State.fetch_of_le {s : State} (h : s.pc.toNat ≤ s.romLen.val) :
    s.fetch = (s.romRead s.pc, s.setPc (s.pc + 1)) := if_neg (Nat.not_lt.mpr h)

/-- Beyond the end fetch answers the sentinel and keeps `pc` (R71, decision D4). -/
theorem State.fetch_of_gt {s : State} (h : s.romLen.val < s.pc.toNat) : s.fetch = (0x00, s) := if_pos h

theorem State.fetch_byte_of_ge {s : State} (h : s.romLen.val ≤ s.pc.toNat) : s.fetch.1 = 0x00 := by
  rcases s.fetch_cases with ⟨hlt, -⟩ | ⟨-, hf⟩ | ⟨-, hf⟩
  · omega
  · rw [hf]
  · rw [hf]

/-- `pc` wraps at `2 ^ PC_WIDTH` (R13, decision D1). -/
theorem index_succ_toNat (x : Index) : (x + 1).toNat = (x.toNat + 1) % 256 := BitVec.toNat_add x 1

theorem index_succ_ne (x : Index) : x + 1 ≠ x := by
  intro h
  have hval := congrArg BitVec.toNat h
  rw [index_succ_toNat] at hval
  omega

/-- Fetch touches nothing outside `pc` (R71). -/
theorem State.fetch_sameOutside (s : State) : s.sameOutside s.fetch.2 :=
  ⟨s.fetch_flt, s.fetch_fltCode, State.sameRom_of_eq s.fetch_romLen s.fetch_rom, s.fetch_host, s.fetch_edges⟩

theorem State.edgeInput_of_cons {s : State} {e : EdgeInput} {es : List EdgeInput} (h : s.host = e :: es) :
    s.edgeInput = e := by
  rw [State.edgeInput, h]

theorem State.edgeInput_of_nil {s : State} (h : s.host = []) :
    s.edgeInput = { rst := false, inPort := Config.freeInput s.edges } := by
  rw [State.edgeInput, h]

/-- With no reset ahead `rst` is low at this edge, listed or not (R21, log entry 2). -/
theorem State.noReset.rstNow {s : State} (h : s.noReset) : s.rstNow = false := by
  rcases hhost : s.host with _ | ⟨e, es⟩
  · rw [State.rstNow, State.edgeInput_of_nil hhost]
  · rw [State.rstNow, State.edgeInput_of_cons hhost]
    exact h e (by rw [hhost]; exact List.mem_cons_self)

theorem step_of_rst {s : State} (h : s.rstNow = true) : step s = .next s.resetCore.passEdge := if_pos h

/-- A step that answered a next state was a reset or ran the instruction it decoded (R21). -/
theorem step_next_cases {s t : State} (h : step s = .next t) :
    (s.rstNow = true ∧ t = s.resetCore.passEdge) ∨
    (s.running ∧ ∃ i, decode s.fetch.1 = .ok i ∧ t = (handled i s.fetch.2).passEdge) := by
  rcases step_cases s with ⟨hrst, hs⟩ | ⟨-, -, hs⟩ | ⟨hr, i, hd, hs⟩ | ⟨-, _, -, -, -, -, hs⟩
  all_goals
    rw [hs] at h
    cases h
  · exact .inl ⟨hrst, rfl⟩
  · exact .inr ⟨hr, i, hd, rfl⟩

/-- A step that answered a fault held a latched core or met an illegal byte of the ROM (R131, R137). -/
theorem step_fault_cases {s : State} {f : Fault} (h : step s = .fault f) :
    (s.flt = 1 ∧ f = .stopped s.fltCode s.passEdge) ∨
    (s.pc.toNat < s.romLen.val ∧ opcodeField (s.romRead s.pc) ∈ illegalOpcodes ∧
      f = .unsupportedOpcode (opcodeField (s.romRead s.pc))
        ((s.setPc (s.pc + 1)).latchFault (opcodeField (s.romRead s.pc))).passEdge) := by
  rcases step_cases s with ⟨-, hs⟩ | ⟨-, hflt, hs⟩ | ⟨-, i, -, hs⟩ | ⟨-, bits, -, rfl, hill, hlt, hs⟩
  all_goals
    rw [hs] at h
    cases h
  · exact .inl ⟨hflt, rfl⟩
  · exact .inr ⟨hlt, hill, rfl⟩

theorem step_next_sameRom {s t : State} (h : step s = .next t) : s.sameRom t :=
  State.sameRom_of_eq (step_next_rom h).1 (step_next_rom h).2

/-- Each clock edge takes one entry of the host's list and counts one edge (log entry 1). -/
theorem step_next_host {s t : State} (h : step s = .next t) : t.host = s.host.tail ∧ t.edges = s.edges + 1 := by
  rcases step_next_cases h with ⟨-, rfl⟩ | ⟨-, i, -, rfl⟩
  · exact ⟨rfl, rfl⟩
  · simp

theorem step_next_noReset {s t : State} (h : step s = .next t) (hno : s.noReset) : t.noReset := by
  intro e he
  rw [(step_next_host h).1] at he
  exact hno e (List.mem_of_mem_tail he)

/-- What every step keeps, and makes possible again, holds along a run of any length. -/
theorem run_of_step_keeps {P : State → Prop} (hstep : ∀ s, P s → ∃ t, step s = .next t ∧ P t) (n : Nat) {s : State}
    (h : P s) : ∃ t, Sys2Proof.core.run n s = .next t ∧ P t := by
  induction n generalizing s with
  | zero => exact ⟨s, rfl, h⟩
  | succ n ih =>
    obtain ⟨t, ht, hPt⟩ := hstep s h
    obtain ⟨u, hu, hPu⟩ := ih hPt
    exact ⟨u, (core_run_next n ht).trans hu, hPu⟩

end Sys2Proof.Machine
end

section
/-! SUPPORT. The invariants (10_state.md sections 6 and 7, 20_memory.md): the fault latch, the ROM's canonical form, a ROM
that cannot fault, the reach of `pc`. -/

namespace Sys2Proof.Machine

theorem State.latchInv_congr {s t : State} (hflt : t.flt = s.flt) (hcode : t.fltCode = s.fltCode) (h : s.latchInv) :
    t.latchInv := by
  unfold State.latchInv
  rwa [hflt, hcode]

theorem State.romInv_congr {s t : State} (hlen : t.romLen = s.romLen) (hrom : t.rom = s.rom) (h : s.romInv) :
    t.romInv := by
  unfold State.romInv
  rwa [hlen, hrom]

/-- Reset clears the latch, and no instruction writes it (R22, R23). -/
theorem step_next_latchInv {s t : State} (h : step s = .next t) (hs : s.latchInv) : t.latchInv := by
  rcases step_next_cases h with ⟨-, rfl⟩ | ⟨-, i, -, rfl⟩
  · exact .inl ⟨rfl, rfl⟩
  · exact State.latchInv_congr (by simp) (by simp) hs

/-- A latched core holds its code, and the exception latches the illegal one (R131, R137). -/
theorem step_fault_latchInv {s : State} {f : Fault} (h : step s = .fault f) (hs : s.latchInv) : f.state.latchInv := by
  rcases step_fault_cases h with ⟨-, rfl⟩ | ⟨-, hill, rfl⟩
  · exact hs
  · exact .inr ⟨rfl, hill⟩

/-- Neither fault writes the ROM (R131, R137). -/
theorem step_fault_rom {s : State} {f : Fault} (h : step s = .fault f) :
    f.state.romLen = s.romLen ∧ f.state.rom = s.rom := by
  rcases step_fault_cases h with ⟨-, rfl⟩ | ⟨-, -, rfl⟩ <;> exact ⟨rfl, rfl⟩

/-- Settles O43: the latch and the ROM, for each of the two outcomes. -/
theorem stepKeepsInvariant : Obligations.StepKeepsInvariant := by
  rintro s ⟨hlatch, hrom⟩
  constructor
  · intro t ht
    obtain ⟨hlen', hrom'⟩ := step_next_rom ht
    exact ⟨step_next_latchInv ht hlatch, State.romInv_congr hlen' hrom' hrom⟩
  · intro f hf
    obtain ⟨hlen', hrom'⟩ := step_fault_rom hf
    exact ⟨step_fault_latchInv hf hlatch, State.romInv_congr hlen' hrom' hrom⟩

/-- Settles O42: the latch is clear, no ROM byte is listed, and `pc` is 0. -/
theorem resetMeetsInvariant : Obligations.ResetMeetsInvariant :=
  ⟨⟨.inl ⟨rfl, rfl⟩, rfl, rfl⟩, Nat.zero_le _⟩

theorem State.romLegal_congr {s t : State} (h : s.sameRom t) (hs : s.romLegal) : t.romLegal := by
  obtain ⟨hlen, hread⟩ := h
  intro x hx
  rw [hlen] at hx
  rw [hread]
  exact hs x hx

/-- From a clear latch the next state's latch is clear: reset and every instruction leave it 0. -/
theorem step_next_flt_zero {s t : State} (h : step s = .next t) (hs : s.flt = 0) : t.flt = 0 := by
  rcases step_next_cases h with ⟨-, rfl⟩ | ⟨-, i, -, rfl⟩
  · rfl
  · exact (handled_fetch_flt i s).trans hs

/-- R163, one edge: with the latch clear and no illegal byte to fetch, neither fault can be raised. -/
theorem step_of_romLegal {s : State} (hlegal : s.romLegal) (hflt : s.flt = 0) :
    ∃ t, step s = .next t ∧ t.romLegal ∧ t.flt = 0 := by
  have hnext : ∃ t, step s = .next t := by
    rcases step_cases s with ⟨-, hs⟩ | ⟨-, h1, -⟩ | ⟨-, i, -, hs⟩ | ⟨-, bits, -, hbits, hill, hlt, -⟩
    · exact ⟨_, hs⟩
    · rw [hflt] at h1
      exact absurd h1 (by decide)
    · exact ⟨_, hs⟩
    · exact absurd (hbits ▸ hill) (hlegal s.pc hlt)
  obtain ⟨t, ht⟩ := hnext
  exact ⟨t, ht, State.romLegal_congr (step_next_sameRom ht) hlegal, step_next_flt_zero ht hflt⟩

/-- Settles O44: the step lemma, lifted to runs. -/
theorem legalRomNeverFaults : Obligations.LegalRomNeverFaults :=
  ⟨fun _ => step_of_romLegal, fun n _ hlegal hflt =>
    run_of_step_keeps (P := fun s => s.romLegal ∧ s.flt = 0) (fun _ h => step_of_romLegal h.1 h.2) n ⟨hlegal, hflt⟩⟩

/-- Fetch takes `pc` at most one past the one-past-the-end index (R72). -/
theorem State.fetch_pc_inReach {s : State} (h : s.pcInReach) : s.fetch.2.pc.toNat ≤ max (s.romLen.val + 1) 15 := by
  rcases Nat.lt_or_ge s.romLen.val s.pc.toNat with hgt | hle
  · rw [State.fetch_of_gt hgt]
    exact h
  · rw [State.fetch_of_le hle, State.setPc_pc, index_succ_toNat]
    omega

/-- Settles O35: `pc` is 0 after reset, and else what fetch left or a 4-bit target. -/
theorem pcStaysInReach : Obligations.PcStaysInReach := by
  intro s t hreach ht
  unfold State.pcInReach
  rw [(step_next_rom ht).1]
  rcases step_next_cases ht with ⟨-, rfl⟩ | ⟨-, i, -, rfl⟩
  · exact Nat.zero_le _
  · rw [State.passEdge_pc]
    rcases handled_pc i s.fetch.2 with hpc | ⟨im, -, hpc⟩
    · rw [hpc]
      exact State.fetch_pc_inReach hreach
    · have := im.isLt
      rw [hpc, jumpTarget_toNat]
      omega

/-- Settles O26: by induction on the number of steps, none of which changes the ROM. -/
theorem romImmutableInRun : Obligations.RomImmutableInRun := by
  intro n
  induction n with
  | zero =>
    rintro s t ⟨⟩
    exact s.sameRom_refl
  | succ n ih =>
    intro s u h
    obtain ⟨t, ht, hu⟩ := core_run_next_inv h
    exact (step_next_sameRom ht).trans (ih t u hu)

end Sys2Proof.Machine
end

section
/-! SUPPORT. The cycle (40_cycle.md): reset, the three cases of fetch, the instruction a step runs, and what it does to
each register. -/

namespace Sys2Proof.Machine

/-- Settles O1: the seven fields of `State.reset` are evaluated. -/
theorem resetStateValues : Obligations.ResetStateValues := ⟨rfl, rfl, rfl, rfl, rfl, rfl, rfl⟩

/-- Settles O2: the step is `resetCore`, which writes the seven fields and not the ROM. -/
theorem resetEdgeClearsCore : Obligations.ResetEdgeClearsCore := fun s hrst =>
  ⟨s.resetCore.passEdge, step_of_rst hrst, rfl, rfl, rfl, rfl, rfl, rfl, rfl, State.sameRom_of_eq rfl rfl⟩

/-- Settles O21: by the rules of fetch and of the ROM reader in each case. -/
theorem fetchThreeCases : Obligations.FetchThreeCases := by
  intro s
  refine ⟨fun hlt => ?_, fun hend => ?_, fun hgt => ?_, s.fetch_a, s.fetch_b, s.fetch_c, s.fetch_out,
    s.fetch_sameOutside⟩
  · rw [State.fetch_of_le hlt.le]
    exact ⟨State.romRead_of_lt hlt, index_succ_toNat s.pc⟩
  · rw [State.fetch_of_le hend.le]
    exact ⟨State.romRead_of_ge hend.ge, index_succ_toNat s.pc⟩
  · rw [State.fetch_of_gt hgt]
    exact ⟨rfl, rfl⟩

/-- A running core whose byte decodes hands the state fetch left to that instruction's handler (R70, R74). -/
theorem step_eq_endCycle {s : State} (hr : s.running) {i : Instr} (hd : decode s.fetch.1 = .ok i) :
    step s = endCycle (exec i s.fetch.2) := by
  rw [step_of_decode hr hd, exec_eq, endCycle]

/-- Settles O22: the handler answers `handled i s.fetch.2`, and the passing of the edge touches the host's side only. -/
theorem stepRunsDecodedInstruction : Obligations.StepRunsDecodedInstruction := fun s i hr hd =>
  ⟨step_eq_endCycle hr hd, handled i s.fetch.2, exec_eq i s.fetch.2, step_of_decode hr hd, State.sameCore_passEdge _,
    State.sameRom_of_eq rfl rfl, step_next_host (step_of_decode hr hd)⟩

/-- R111, not taken: `pc` stays as fetch left it. -/
theorem handled_jnc_pc_of_carry (im : Nibble) {s : State} (hc : s.c = 1) : (handled (.jnc im) s).pc = s.pc :=
  if_neg (by rw [hc]; decide)

theorem handled_jnc_pc_of_clear (im : Nibble) {s : State} (hc : s.c = 0) :
    (handled (.jnc im) s).pc.toNat = im.toNat := by
  rw [handled_jnc_pc_toNat, if_pos hc]

/-- Settles O24: the `pc` the handler leaves, in each of the four cases. -/
theorem netEffectOnPc : Obligations.NetEffectOnPc := by
  intro s i hr hd
  refine ⟨_, step_of_decode hr hd, ?_, ?_, ?_, fun hi => handled_pc_of_not_jump i hi s.fetch.2⟩
  · rintro im rfl
    exact handled_jmp_pc_toNat im s.fetch.2
  · rintro im rfl hc
    exact handled_jnc_pc_of_clear im (s.fetch_c.trans hc)
  · rintro im rfl hc
    exact handled_jnc_pc_of_carry im (s.fetch_c.trans hc)

/-- An Add sets the carry exactly when it overflows, and else leaves it (R14, R90, R91). -/
theorem handled_c_eq_one_iff {i : Instr} (hi : i.isAdd = true) (s : State) :
    (handled i s).c = 1 ↔ s.c = 1 ∨ addOverflows i s := by
  cases i
  case addA im =>
    have hover : addOverflows (.addA im) s ↔ 15 < s.a.toNat + im.toNat := by simp [addOverflows]
    rw [handled_addA_c, hover]
    split <;> simp_all
  case addB im =>
    have hover : addOverflows (.addB im) s ↔ 15 < s.b.toNat + im.toNat := by simp [addOverflows]
    rw [handled_addB_c, hover]
    split <;> simp_all
  all_goals cases hi

/-- Settles O25: the step ran the instruction it decoded, and each column of the access matrix has its lemma. -/
theorem onlyWritersChange : Obligations.OnlyWritersChange := by
  intro s t hrst ht
  rcases step_next_cases ht with ⟨hrst', -⟩ | ⟨-, i, hd, rfl⟩
  · rw [hrst] at hrst'
    cases hrst'
  · exact ⟨i, hd, fun hi => (handled_a_of_not_writesA hi _).trans s.fetch_a,
      fun hi => (handled_b_of_not_writesB hi _).trans s.fetch_b,
      fun hi => (handled_out_of_not_writesOut hi _).trans s.fetch_out,
      fun hi => handled_c_of_not_isAdd hi _,
      fun hi hc => (handled_c_eq_one_iff hi _).mpr (.inl (s.fetch_c.trans hc)),
      handled_fetch_flt i s, (handled_fltCode i _).trans s.fetch_fltCode⟩

/-- Settles O29: the first cycle leaves the carry clear and the latch as it was, so the `Jnc` runs and is taken. -/
theorem jncAfterNonAddTaken : Obligations.JncAfterNonAddTaken := by
  intro s t i im hr hd hi ht hrst hd'
  obtain rfl : (handled i s.fetch.2).passEdge = t := Host.Outcome.next.inj ((step_of_decode hr hd).symm.trans ht)
  have hc : (handled i s.fetch.2).passEdge.c = 0 := handled_c_of_not_isAdd hi s.fetch.2
  refine ⟨_, step_of_decode ⟨hrst, (handled_fetch_flt i s).trans hr.2⟩ hd', ?_, handled_c_of_not_isAdd rfl _⟩
  exact handled_jnc_pc_of_clear im ((State.fetch_c _).trans hc)

end Sys2Proof.Machine
end

section
/-! SUPPORT. The ignored immediate (R55): the handler of `MovAB`, `InA`, `MovBA`, `InB` and `OutB` is told by the opcode
alone, and none of them reads the ROM. -/

namespace Sys2Proof.Machine

/-- An instruction that ignores its low nibble is handled as if it were 0. -/
theorem handled_of_ignored {i : Instr} (h : i.opcode ∈ [1#4, 2#4, 4#4, 6#4, 9#4]) :
    handled i = handled (i.mnemonic.instr 0) := by
  cases i
  case movAB | movBA | inA | inB | outB => rfl
  all_goals simp [Instr.opcode] at h

/-- The opcode tells the instruction up to its immediate. -/
theorem instr_zero_of_opcode_eq {i j : Instr} (h : i.opcode = j.opcode) : i.mnemonic.instr 0 = j.mnemonic.instr 0 := by
  have hbyte (k : Instr) : decode (k.opcode ++ 0#4) = .ok (k.mnemonic.instr 0) := by
    rw [decode_ok_iff, encode_eq_iff, opcodeField_append, imField_append]
    exact ⟨by rw [← opcode_instr k.mnemonic k.im, instr_mnemonic], im_instr _ _⟩
  exact Except.ok.inj (by rw [← hbyte i, ← hbyte j, h])

theorem handled_eq_of_opcode_eq {i j : Instr} (h : i.opcode = j.opcode)
    (hi : i.opcode ∈ [1#4, 2#4, 4#4, 6#4, 9#4]) : handled i = handled j := by
  rw [handled_of_ignored hi, handled_of_ignored (i := j) (h ▸ hi), instr_zero_of_opcode_eq h]

/-- No handler reads the ROM (R30). -/
theorem handled_withRom (i : Instr) (s : State) (rom : Memory) :
    handled i (s.withRom rom) = (handled i s).withRom rom := by
  cases i <;> rfl

/-- A byte with one of the five opcodes decodes to an instruction with that opcode. -/
theorem exists_decode_of_ignored {byte : Byte} (h : opcodeField byte ∈ [1#4, 2#4, 4#4, 6#4, 9#4]) :
    ∃ i, decode byte = .ok i ∧ i.opcode = opcodeField byte := by
  rcases decode_cases byte with ⟨i, hd, hop, -⟩ | ⟨-, hill⟩
  · exact ⟨i, hd, hop⟩
  · have hdisjoint : ∀ op ∈ [8#4, 10#4, 12#4, 13#4], op ∉ [1#4, 2#4, 4#4, 6#4, 9#4] := by decide
    exact absurd h (hdisjoint _ hill)

/-- In range, a running core with one of the five opcodes at `pc` steps by that instruction's handler. -/
theorem step_of_ignored {s : State} (hr : s.running) (hlt : s.pc.toNat < s.romLen.val)
    (hop : opcodeField (s.romRead s.pc) ∈ [1#4, 2#4, 4#4, 6#4, 9#4]) :
    ∃ i : Instr, i.opcode = opcodeField (s.romRead s.pc) ∧ step s = .next (handled i (s.setPc (s.pc + 1))).passEdge := by
  have hf := State.fetch_of_le hlt.le
  obtain ⟨i, hd, hi⟩ := exists_decode_of_ignored hop
  refine ⟨i, hi, ?_⟩
  rw [step_of_decode hr (by rwa [hf]), hf]

/-- Settles O20: both steps run a handler of the same opcode, on states that differ in the ROM only. -/
theorem ignoredImmediateAlike : Obligations.IgnoredImmediateAlike := by
  intro s rom hr hlt hop hsame
  obtain ⟨i, hi, ht⟩ := step_of_ignored hr hlt hop
  obtain ⟨j, hj, hu⟩ := step_of_ignored (s := s.withRom rom) hr hlt (hsame.symm ▸ hop)
  have hij : i.opcode = j.opcode := by rw [hi, hj, ← hsame]; rfl
  have hfetched : (s.withRom rom).setPc ((s.withRom rom).pc + 1) = (s.setPc (s.pc + 1)).withRom rom := rfl
  rw [hfetched, handled_withRom, ← handled_eq_of_opcode_eq hij (hi ▸ hop)] at hu
  exact ⟨_, _, ht, hu, State.sameCore_refl _⟩

end Sys2Proof.Machine
end

section
/-! SUPPORT. Runs of Adds and subtraction by adding (41_arithmetic.md, the arithmetic laws). -/

namespace Sys2Proof.Machine

/-- Some instruction of the list overflows at the state it runs in. -/
def overflowsIn (l : List Instr) (s : State) : Prop :=
  ∃ before i after u, l = before ++ i :: after ∧ execAll before s = .next u ∧ addOverflows i u

/-- The first handler answers, and the list goes on from there. -/
theorem execAll_cons (i : Instr) (l : List Instr) (s : State) : execAll (i :: l) s = execAll l (handled i s) := by
  rw [execAll, exec_eq]

theorem not_overflowsIn_nil (s : State) : ¬ overflowsIn [] s := by
  rintro ⟨before, i, after, u, hl, -⟩
  cases before <;> cases hl

theorem overflowsIn_cons (i : Instr) (l : List Instr) (s : State) :
    overflowsIn (i :: l) s ↔ addOverflows i s ∨ overflowsIn l (handled i s) := by
  constructor
  · rintro ⟨_ | ⟨j, before⟩, k, after, u, hl, hu, hover⟩
    · obtain ⟨rfl, rfl⟩ := List.cons.inj hl
      cases hu
      exact .inl hover
    · obtain ⟨rfl, rfl⟩ := List.cons.inj hl
      exact .inr ⟨before, k, after, u, rfl, (execAll_cons i before s).symm.trans hu, hover⟩
  · rintro (hover | ⟨before, k, after, u, rfl, hu, hover⟩)
    · exact ⟨[], i, l, s, rfl, rfl, hover⟩
    · exact ⟨i :: before, k, after, u, rfl, (execAll_cons i before s).trans hu, hover⟩

/-- One Add leaves in `a` its own share of the sum, modulo 16. -/
theorem handled_add_a_toNat {i : Instr} (hi : i.isAdd = true) (l : List Instr) (s : State) :
    ((handled i s).a.toNat + addedToA l) % 16 = (s.a.toNat + addedToA (i :: l)) % 16 := by
  cases i
  case addA im =>
    rw [handled_addA_a_toNat, addedToA]
    omega
  case addB im => rfl
  all_goals cases hi

/-- Settles O27: by induction on the list, the overflow of its head being that of `handled_c_eq_one_iff`. -/
theorem carryStickyOverAddRun : Obligations.CarryStickyOverAddRun := by
  intro l
  induction l with
  | nil =>
    intro s _
    have ha : s.a.toNat = (s.a.toNat + 0) % 16 := (Nat.mod_eq_of_lt s.a.isLt).symm
    exact ⟨s, rfl, (or_iff_left (not_overflowsIn_nil s)).symm, ha⟩
  | cons i l ih =>
    intro s hadds
    have hi : i.isAdd = true := hadds i List.mem_cons_self
    obtain ⟨t, ht, hc, ha⟩ := ih (handled i s) fun j hj => hadds j (List.mem_cons_of_mem i hj)
    refine ⟨t, (execAll_cons i l s).trans ht, ?_, ha.trans (handled_add_a_toNat hi l s)⟩
    calc t.c = 1 ↔ (handled i s).c = 1 ∨ overflowsIn l (handled i s) := hc
      _ ↔ s.c = 1 ∨ addOverflows i s ∨ overflowsIn l (handled i s) := by rw [handled_c_eq_one_iff hi, or_assoc]
      _ ↔ s.c = 1 ∨ overflowsIn (i :: l) s := by rw [overflowsIn_cons]

/-- `(x + (16 - k)) mod 16` is `(x - k) mod 16`. -/
theorem add_complement_mod (x : Nat) {k : Nat} (hk : k ≤ 15) :
    (((x + (16 - k)) % 16 : Nat) : Int) = ((x : Int) - k) % 16 := by
  omega

/-- From a clear carry the complement's sum sets the carry exactly when it does not borrow. -/
theorem carry_complement_iff (x : Nat) {k : Nat} (hk : k ≤ 15) {c : Bit} (hc : c = 0) :
    (if 15 < x + (16 - k) then 1 else c) = 1 ↔ k ≤ x := by
  have hover : 15 < x + (16 - k) ↔ k ≤ x := by omega
  rw [← hover, hc]
  split <;> simp_all

/-- Settles O28: the sum and the carry of R90 and R91 at the immediate `16 - k`. -/
theorem subtractByAdding : Obligations.SubtractByAdding := by
  intro s k hc hk1 hk15
  have him : (BitVec.ofNat 4 (16 - k)).toNat = 16 - k := Nat.mod_eq_of_lt (by omega)
  constructor
  · refine ⟨_, exec_eq _ s, ?_, ?_⟩
    · rw [handled_addA_a_toNat, him, add_complement_mod _ hk15]
    · rw [handled_addA_c, him, carry_complement_iff _ hk15 hc]
  · refine ⟨_, exec_eq _ s, ?_, ?_⟩
    · rw [handled_addB_b_toNat, him, add_complement_mod _ hk15]
    · rw [handled_addB_c, him, carry_complement_iff _ hk15 hc]

end Sys2Proof.Machine
end

section
/-! SUPPORT. The one exception and the latched core (60_exceptions.md). -/

namespace Sys2Proof.Machine

/-- In range, a running core on an illegal byte takes the exception (R130, R131). -/
theorem step_of_illegal_romByte {s : State} (hr : s.running) (hlt : s.pc.toNat < s.romLen.val)
    (hill : opcodeField (s.romRead s.pc) ∈ illegalOpcodes) :
    step s = .fault (.unsupportedOpcode (opcodeField (s.romRead s.pc))
      ((s.setPc (s.pc + 1)).latchFault (opcodeField (s.romRead s.pc))).passEdge) := by
  have hf := State.fetch_of_le hlt.le
  have hd : decode s.fetch.1 = .error (.unsupportedOpcode (opcodeField (s.romRead s.pc))) := by
    rw [hf, decode_error_iff]
    exact ⟨rfl, hill⟩
  rw [step_of_illegal hr hd, hf]

/-- Settles O39: a byte that does not decode stands in range, so the exception's state is the one of R131. -/
theorem illegalByteLatchesFault : Obligations.IllegalByteLatchesFault := by
  intro s bits hr hd
  obtain ⟨hbits, hill⟩ := (decode_error_iff _ _).mp hd
  obtain ⟨hlt, hf⟩ := s.fetch_illegal (hbits ▸ hill)
  rw [hf] at hbits
  subst hbits
  exact ⟨_, step_of_illegal_romByte hr hlt hill, hlt, rfl, hill, index_succ_toNat s.pc, rfl, rfl, rfl, rfl, rfl, rfl,
    State.sameRom_of_eq rfl rfl⟩

/-- Settles O40: a running core is not latched, so a fault is the exception of an illegal byte in range. -/
theorem faultExactlyOnIllegalRomByte : Obligations.FaultExactlyOnIllegalRomByte := by
  intro s hr
  constructor
  · rintro ⟨f, hf⟩
    rcases step_fault_cases hf with ⟨hflt, -⟩ | ⟨hlt, hill, -⟩
    · rw [hr.2] at hflt
      exact absurd hflt (by decide)
    · exact ⟨hlt, hill⟩
  · rintro ⟨hlt, hill⟩
    exact ⟨_, step_of_illegal_romByte hr hlt hill⟩

/-- R137: a latched core with `rst` low performs no cycle. -/
theorem step_of_latched {s : State} (hflt : s.flt = 1) (hrst : s.rstNow = false) :
    step s = .fault (.stopped s.fltCode s.passEdge) := by
  simp [step, clockEdge, hrst, hflt]

/-- Settles O41: the state held differs from `s` in the host's side only. -/
theorem latchedCoreHolds : Obligations.LatchedCoreHolds := fun s hflt hrst =>
  ⟨s.passEdge, step_of_latched hflt hrst, s.sameCore_passEdge, State.sameRom_of_eq rfl rfl⟩

theorem not_ended_of_latched (e : EndOfRun) (k : Nat) {s : State} (hflt : s.flt = 1) : ¬ e.ended k s := by
  rintro ⟨h0, -⟩
  rw [hflt] at h0
  exact absurd h0 (by decide)

/-- Settles O47: every candidate asks for a clear latch, and every fault leaves it set. -/
theorem faultedStateNeverEnded : Obligations.FaultedStateNeverEnded :=
  ⟨fun e k _ => not_ended_of_latched e k, fun _ _ hf e k => not_ended_of_latched e k (step_fault_flt hf)⟩

end Sys2Proof.Machine
end

section
/-! SUPPORT. The input port (10_state.md section 5, 44_io.md): what a value driven at this edge changes. -/

namespace Sys2Proof.Machine

@[simp] theorem State.drivenNow_inNow (s : State) (e : EdgeInput) : (s.drivenNow e).inNow = e.inPort := rfl

theorem State.drivenNow_running {s : State} (hflt : s.flt = 0) (v : Nibble) : (s.drivenNow ⟨false, v⟩).running :=
  ⟨rfl, hflt⟩

/-- Fetch does not look at the host's levels (R71). -/
theorem State.fetch_drivenNow (s : State) (e : EdgeInput) :
    (s.drivenNow e).fetch = (s.fetch.1, s.fetch.2.drivenNow e) := by
  rcases Nat.lt_or_ge s.romLen.val s.pc.toNat with hgt | hle
  · rw [State.fetch_of_gt hgt, State.fetch_of_gt (s := s.drivenNow e) hgt]
  · rw [State.fetch_of_le hle, State.fetch_of_le (s := s.drivenNow e) hle]
    rfl

/-- The step of a core that is not latched, at an edge where `v` is driven. -/
theorem step_drivenNow {s : State} (hflt : s.flt = 0) (v : Nibble) {i : Instr} (hd : decode s.fetch.1 = .ok i) :
    step (s.drivenNow ⟨false, v⟩) = .next (handled i (s.fetch.2.drivenNow ⟨false, v⟩)).passEdge := by
  have hf := s.fetch_drivenNow ⟨false, v⟩
  rw [step_of_decode (State.drivenNow_running hflt v) (by rwa [hf]), hf]

/-- Only `InA` and `InB` read the port (R16, R22). -/
theorem handled_drivenNow {i : Instr} (h : i.readsPort = false) (s : State) (e : EdgeInput) :
    handled i (s.drivenNow e) = (handled i s).drivenNow e := by
  cases i
  case inA => cases h
  case inB => cases h
  all_goals rfl

/-- The passing of the edge drops the levels driven at it. -/
theorem State.drivenNow_passEdge (s : State) (e : EdgeInput) :
    (s.drivenNow e).passEdge = { s with edges := s.edges + 1 } := rfl

/-- Settles O36: the destination takes the head of the host's list, which the passing of the edge then drops. -/
theorem inputOfTheSameCycle : Obligations.InputOfTheSameCycle := by
  intro s v im hflt
  constructor
  · intro hd
    exact ⟨_, step_drivenNow hflt v hd, (handled_inA_a im _).trans (State.drivenNow_inNow _ _), s.fetch_host⟩
  · intro hd
    exact ⟨_, step_drivenNow hflt v hd, (handled_inB_b im _).trans (State.drivenNow_inNow _ _), s.fetch_host⟩

/-- Settles O37: the levels driven pass unread through the handler and are dropped at the edge. -/
theorem inputUnseenByOthers : Obligations.InputUnseenByOthers := by
  intro s i v w hflt hd hi
  have hstep (x : Nibble) : step (s.drivenNow ⟨false, x⟩) =
      .next { handled i s.fetch.2 with edges := (handled i s.fetch.2).edges + 1 } := by
    rw [step_drivenNow hflt x hd, handled_drivenNow hi, State.drivenNow_passEdge]
  exact ⟨_, hstep v, hstep w⟩

/-- Settles O38: the step's count of entries and edges, and the two cases of `edgeInput`. -/
theorem eachEdgeTakesOneInput : Obligations.EachEdgeTakesOneInput := by
  refine ⟨fun s t => step_next_host, fun s e es hhost => ?_, fun s hhost => ?_⟩
  · rw [State.inNow, State.rstNow, State.edgeInput_of_cons hhost]
    exact ⟨rfl, rfl⟩
  · rw [State.inNow, State.rstNow, State.edgeInput_of_nil hhost]
    exact ⟨rfl, rfl⟩

end Sys2Proof.Machine
end

section
/-! SUPPORT. Where a cycle changes nothing (40_cycle.md section 5, 43_jump.md, 70_reset_and_hazards.md section 6): the two
kinds of fixed point, and that a run never leaves one without a reset. -/

namespace Sys2Proof.Machine

/-- The two places at which a cycle changes no architectural field: beyond the end of the ROM, and a jump to its own
index with the carry clear (R170 (b)). -/
def State.standsStill (s : State) : Prop :=
  s.romLen.val < s.pc.toNat ∨
    (s.pc.toNat < s.romLen.val ∧ s.c = 0 ∧ ∃ im : Nibble, im.toNat = s.pc.toNat ∧
      (decode (s.romRead s.pc) = .ok (.jmp im) ∨ decode (s.romRead s.pc) = .ok (.jnc im)))

theorem State.sameCore.flt_eq {s t : State} (h : s.sameCore t) : t.flt = s.flt := by
  obtain ⟨-, -, -, -, -, hflt, -⟩ := h
  exact hflt

theorem State.standsStill_congr {s t : State} (hcore : s.sameCore t) (hrom : s.sameRom t) (h : s.standsStill) :
    t.standsStill := by
  obtain ⟨hpc, -, -, hc, -, -, -⟩ := hcore
  obtain ⟨hlen, hread⟩ := hrom
  unfold State.standsStill
  rwa [hpc, hc, hlen, hread]

/-- At and beyond the end the step runs `AddA 0`, which leaves what fetch left (R72, R77). -/
theorem step_past_end {s : State} (hr : s.running) (h : s.romLen.val ≤ s.pc.toNat) :
    step s = .next s.fetch.2.passEdge := by
  have hd : decode s.fetch.1 = .ok (.addA 0) := by rw [State.fetch_byte_of_ge h, decode_zero]
  rw [step_of_decode hr hd, handled_addA_zero]

/-- With the carry clear, `Jmp` and `Jnc` do the same (R110, R111). -/
theorem handled_jnc_of_clear (im : Nibble) {s : State} (hc : s.c = 0) :
    handled (.jnc im) s = handled (.jmp im) s := by
  simp only [handled, if_pos hc]

/-- A jump back to where it was fetched from, with the carry clear, undoes fetch's advance. -/
theorem handled_jmp_sameCore {im : Nibble} {s : State} (him : im.toNat = s.pc.toNat) (hc : s.c = 0) (p : Index) :
    s.sameCore (handled (.jmp im) (s.setPc p)) :=
  ⟨BitVec.eq_of_toNat_eq ((handled_jmp_pc_toNat im _).trans him), rfl, rfl, hc.symm, rfl, rfl, rfl⟩

theorem step_of_standsStill {s : State} (hr : s.running) (h : s.standsStill) :
    ∃ t, step s = .next t ∧ s.sameCore t := by
  rcases h with hgt | ⟨hlt, hc, im, him, hd⟩
  · refine ⟨_, step_past_end hr hgt.le, ?_⟩
    rw [State.fetch_of_gt hgt]
    exact s.sameCore_passEdge
  · have hf := State.fetch_of_le hlt.le
    have hself := (handled_jmp_sameCore him hc (s.pc + 1)).trans (State.sameCore_passEdge _)
    rcases hd with hd | hd
    · refine ⟨_, step_of_decode hr (by rwa [hf]), ?_⟩
      rwa [hf]
    · refine ⟨_, step_of_decode hr (by rwa [hf]), ?_⟩
      rwa [hf, handled_jnc_of_clear (s := s.setPc (s.pc + 1)) im hc]

/-- An instruction other than an Add comes from the ROM: at and beyond the end the byte is `AddA 0` (R72). -/
theorem pc_lt_of_decode_not_isAdd {s : State} {i : Instr} (hd : decode s.fetch.1 = .ok i) (hi : i.isAdd = false) :
    s.pc.toNat < s.romLen.val := by
  refine Nat.lt_of_not_le fun hge => ?_
  rw [State.fetch_byte_of_ge hge, decode_zero] at hd
  obtain rfl := Except.ok.inj hd
  cases hi

/-- A cycle that changes no field is one of the two: up to the end fetch has advanced `pc`, so a jump has set it back,
and every jump clears the carry. -/
theorem standsStill_of_step {s t : State} (hr : s.running) (ht : step s = .next t) (hcore : s.sameCore t) :
    s.standsStill := by
  obtain ⟨hpc, -, -, hc, -, -, -⟩ := hcore
  rcases step_next_cases ht with ⟨hrst, -⟩ | ⟨-, i, hd, rfl⟩
  · rw [hr.1] at hrst
    cases hrst
  · rw [State.passEdge_pc] at hpc
    rw [State.passEdge_c] at hc
    rcases handled_pc i s.fetch.2 with hkept | ⟨im, hjump, htarget⟩
    · refine .inl (Nat.lt_of_not_le fun hle => index_succ_ne s.pc ?_)
      rwa [hkept, State.fetch_of_le hle] at hpc
    · have hjump' : i = .jmp im ∨ i = .jnc im := hjump.imp_right And.left
      have hnotAdd : i.isAdd = false := by rcases hjump' with rfl | rfl <;> rfl
      have hlt := pc_lt_of_decode_not_isAdd hd hnotAdd
      rw [State.fetch_of_le hlt.le] at hd
      refine .inr ⟨hlt, hc.symm.trans (handled_c_of_not_isAdd hnotAdd _), im, ?_, ?_⟩
      · rw [← hpc, htarget, jumpTarget_toNat]
      · rcases hjump' with rfl | rfl
        · exact .inl hd
        · exact .inr hd

/-- Settles O33: `standsStill` does not depend on what is driven, so one value on the port decides it. -/
theorem fixedPointsAreExactlyThese : Obligations.FixedPointsAreExactlyThese := by
  intro s
  constructor
  · rintro ⟨hflt, hstep⟩
    obtain ⟨t, ht, hcore⟩ := hstep 0
    have hstill : (s.drivenNow ⟨false, 0⟩).standsStill := standsStill_of_step (State.drivenNow_running hflt 0) ht hcore
    exact ⟨hflt, hstill⟩
  · rintro ⟨hflt, hstill⟩
    refine ⟨hflt, fun v => ?_⟩
    have hstill' : (s.drivenNow ⟨false, v⟩).standsStill := hstill
    exact step_of_standsStill (State.drivenNow_running hflt v) hstill'

theorem State.fixedPoint_iff (s : State) : s.fixedPoint ↔ s.flt = 0 ∧ s.standsStill := fixedPointsAreExactlyThese s

/-- Without a reset ahead a run of any length stays where a cycle changes nothing. -/
theorem run_of_standsStill (n : Nat) {s : State} (hflt : s.flt = 0) (hno : s.noReset) (hstill : s.standsStill) :
    ∃ t, Sys2Proof.core.run n s = .next t ∧ s.sameCore t ∧ s.sameRom t := by
  induction n generalizing s with
  | zero => exact ⟨s, rfl, s.sameCore_refl, s.sameRom_refl⟩
  | succ n ih =>
    obtain ⟨t, ht, hcore⟩ := step_of_standsStill ⟨hno.rstNow, hflt⟩ hstill
    have hrom := step_next_sameRom ht
    obtain ⟨u, hu, hcore', hrom'⟩ := ih (step_next_flt_zero ht hflt) (step_next_noReset ht hno)
      (State.standsStill_congr hcore hrom hstill)
    exact ⟨u, (core_run_next n ht).trans hu, hcore.trans hcore', hrom.trans hrom'⟩

/-- Settles O30: the jump leaves the latch clear and `pc` beyond the end. -/
theorem jumpBeyondRomStays : Obligations.JumpBeyondRomStays := by
  intro s im hr hd hlt
  have ht := step_of_decode hr hd
  have hpc : (handled (.jmp im) s.fetch.2).passEdge.pc.toNat = im.toNat := handled_jmp_pc_toNat im s.fetch.2
  refine ⟨_, ht, hpc, (State.fixedPoint_iff _).mpr ⟨step_next_flt_zero ht hr.2, .inl ?_⟩⟩
  rw [hpc, (step_next_rom ht).1]
  exact hlt

/-- Settles O31: `pc` beyond the end is the first kind of standing still. -/
theorem beyondEndStaysForEver : Obligations.BeyondEndStaysForEver := fun n _ hflt hno hgt =>
  run_of_standsStill n hflt hno (.inl hgt)

/-- Settles O32: the first step is `AddA 0` and takes `pc` beyond the end, where the run then stays. -/
theorem fallThroughReachesFixedPoint : Obligations.FallThroughReachesFixedPoint := by
  intro n s hflt hno hlen hend
  have ht : step s = .next (s.setPc (s.pc + 1)).passEdge := by
    rw [step_past_end ⟨hno.rstNow, hflt⟩ hend.ge, State.fetch_of_le hend.le]
  have hpc : (s.setPc (s.pc + 1)).passEdge.pc.toNat = s.romLen.val + 1 := by
    rw [State.passEdge_pc, State.setPc_pc, index_succ_toNat]
    omega
  have hstill : (s.setPc (s.pc + 1)).passEdge.standsStill := .inl (hpc ▸ Nat.lt_succ_self s.romLen.val)
  obtain ⟨u, hu, hcore, hrom⟩ := run_of_standsStill n (step_next_flt_zero ht hflt) (step_next_noReset ht hno) hstill
  have hfixed := (State.fixedPoint_iff u).mpr
    ⟨hcore.flt_eq.trans hflt, State.standsStill_congr hcore hrom hstill⟩
  obtain ⟨hpc', ha, hb, hc, hout, hflt', -⟩ := hcore
  exact ⟨u, (core_run_next n ht).trans hu, hpc' ▸ hpc, ha, hb, hc, hout, hflt'.trans hflt, hfixed⟩

/-- Settles O34: a fixed point stands still, and the state the run reaches is the same kind of fixed point. -/
theorem endedAtFixedPointStaysEnded : Obligations.EndedAtFixedPointStaysEnded := by
  rintro n k s ⟨hflt, hfixed⟩ hno
  obtain ⟨-, hstill⟩ := (State.fixedPoint_iff s).mp hfixed
  obtain ⟨t, ht, hcore, hrom⟩ := run_of_standsStill n hflt hno hstill
  have hflt' : t.flt = 0 := hcore.flt_eq.trans hflt
  exact ⟨t, ht, hcore, hflt', (State.fixedPoint_iff t).mpr ⟨hflt', State.standsStill_congr hcore hrom hstill⟩⟩

end Sys2Proof.Machine
end

section
/-! SUPPORT. The host before a run (20_memory.md section 1, 70_reset_and_hazards.md section 5): a loaded ROM, and a byte
placed where the next fetch reads. -/

namespace Sys2Proof.Machine

/-- What the host's load leaves, where it succeeds. -/
def State.loaded (s : State) (bytes : List Byte) (h : bytes.length < 257) : State :=
  { s with romLen := ⟨bytes.length, h⟩, rom := Memory.ofBytes 0 bytes }

theorem State.loadRom_of_lt (s : State) {bytes : List Byte} (h : bytes.length < 257) :
    s.loadRom bytes = some (s.loaded bytes h) := dif_pos h

/-- More than `2 ^ PC_WIDTH` bytes are refused (U14, decision D2). -/
theorem State.loadRom_of_gt (s : State) {bytes : List Byte} (h : 256 < bytes.length) : s.loadRom bytes = none :=
  dif_neg (by omega)

/-- A loaded ROM reads back in order, and 0x00 beyond (R31, R32). -/
theorem State.loaded_romRead (s : State) {bytes : List Byte} (h : bytes.length < 257) (x : Index) :
    (s.loaded bytes h).romRead x = bytes.getD x.toNat 0x00 := by
  rcases Nat.lt_or_ge x.toNat bytes.length with hlt | hge
  · rw [State.romRead_of_lt (s := s.loaded bytes h) hlt, ← Memory.read_ofBytes 0 bytes x.toNat, Nat.zero_add]
    rfl
  · rw [State.romRead_of_ge (s := s.loaded bytes h) hge, List.getD_eq_default bytes 0x00 hge]

theorem State.loaded_romInv (s : State) {bytes : List Byte} (h : bytes.length < 257) : (s.loaded bytes h).romInv := by
  have hbelow := Memory.below_ofBytes 0 bytes
  rw [Nat.zero_add] at hbelow
  exact ⟨Memory.wf_ofBytes bytes, hbelow⟩

/-- Settles O45: what the loaded state reads, and the refusal of a longer list. -/
theorem loadedRomReadsBack : Obligations.LoadedRomReadsBack := by
  refine ⟨fun s bytes hlen => ?_, fun s bytes => s.loadRom_of_gt⟩
  have h : bytes.length < 257 := Nat.lt_succ_of_le hlen
  exact ⟨s.loaded bytes h, s.loadRom_of_lt h, rfl, s.loaded_romRead h, s.loaded_romInv h,
    ⟨rfl, rfl, rfl, rfl, rfl, rfl, rfl⟩⟩

/-- A byte read as a word of 8 bits is the byte. -/
theorem ofNat_toNat_mod (byte : Byte) : BitVec.ofNat 8 (byte.toNat % 2 ^ 8) = byte := by
  rw [Nat.mod_eq_of_lt byte.isLt, BitVec.ofNat_toNat, BitVec.setWidth_eq]

/-- The table's word of an instruction decodes to it (R50, R57). -/
theorem decodeTableWord_encode (i : Instr) : decodeTableWord 8 (encode i).toNat = some i := by
  rw [decodeTableWord, ofNat_toNat_mod, decode_encode]
  rfl

theorem State.withFetchWord_toNat (s : State) (byte : Byte) : s.withFetchWord 8 byte.toNat = s.placeByte byte :=
  congrArg s.placeByte (ofNat_toNat_mod byte)

/-- Lowering `rst` touches the first entry of the host's list and nothing else. -/
theorem State.releaseReset_pc (s : State) : s.releaseReset.pc = s.pc := by
  unfold State.releaseReset
  split <;> rfl

theorem State.releaseReset_rstNow (s : State) : s.releaseReset.rstNow = false := by
  rcases hhost : s.host with _ | ⟨e, es⟩
  · have hkept : s.releaseReset = s := by rw [State.releaseReset, hhost]
    rw [hkept, State.rstNow, State.edgeInput_of_nil hhost]
  · have hlow : s.releaseReset.host = { e with rst := false } :: es := by rw [State.releaseReset, hhost]
    rw [State.rstNow, State.edgeInput_of_cons hlow]

theorem State.placeByte_pc (s : State) (byte : Byte) : (s.placeByte byte).pc = s.pc := s.releaseReset_pc

theorem State.placeByte_rom (s : State) (byte : Byte) :
    (s.placeByte byte).rom = Memory.write s.rom s.pc.toNat byte := rfl

/-- `ROM_LEN` takes in the index the byte is placed at. -/
theorem State.placeByte_romLen (s : State) (byte : Byte) :
    (s.placeByte byte).romLen.val = max s.romLen.val (s.pc.toNat + 1) := by
  have hpc := s.pc.isLt
  have hlen := s.romLen.isLt
  exact Nat.mod_eq_of_lt (by omega)

theorem State.placeByte_running (s : State) (byte : Byte) : (s.placeByte byte).running :=
  ⟨s.releaseReset_rstNow, rfl⟩

theorem State.placeByte_romInv {s : State} (h : s.romInv) (byte : Byte) : (s.placeByte byte).romInv := by
  obtain ⟨hwf, hbelow⟩ := h
  refine ⟨Memory.wf_write hwf _ _, ?_⟩
  rw [State.placeByte_romLen, State.placeByte_rom]
  exact Memory.below_write (Memory.below_mono hbelow (le_max_left _ _)) (Nat.lt_of_succ_le (le_max_right _ _)) byte

/-- The byte placed is the byte fetched, the ROM being canonical (R32, R71). -/
theorem State.placeByte_fetch {s : State} (h : s.romInv) (byte : Byte) : (s.placeByte byte).fetch.1 = byte := by
  have hlt : (s.placeByte byte).pc.toNat < (s.placeByte byte).romLen.val := by
    rw [State.placeByte_pc, State.placeByte_romLen]
    omega
  rw [State.fetch_of_le hlt.le]
  calc (s.placeByte byte).romRead (s.placeByte byte).pc
      = Memory.read (s.placeByte byte).rom (s.placeByte byte).pc.toNat := State.romRead_of_lt hlt
    _ = Memory.read (Memory.write s.rom s.pc.toNat byte) s.pc.toNat := by
      rw [State.placeByte_rom, State.placeByte_pc]
    _ = byte := Memory.read_write_same h.1 _ _

/-- Settles O46: the byte placed is fetched and decodes to the instruction, which the running core then runs. -/
theorem placedInstructionRuns : Obligations.PlacedInstructionRuns := by
  intro s i hrom
  rw [State.withFetchWord_toNat]
  have hrun := s.placeByte_running (encode i)
  have hfetch := State.placeByte_fetch hrom (encode i)
  have hd : decode (s.placeByte (encode i)).fetch.1 = .ok i := by rw [hfetch, decode_encode]
  exact ⟨decodeTableWord_encode i, hrun, hfetch, State.placeByte_romInv hrom _, step_eq_endCycle hrun hd⟩

end Sys2Proof.Machine
end
